-- ==== Sys2Proof/Word.lean ====
section
/-! DEFINITION. The unit of the machine: the 16-bit Word (10_state.md R20, 00_scope.md R7) and the 8-bit character of the
terminal interface (00_scope.md R12). Arithmetic on them is that of BitVec: modulo 2^16 and 2^8. -/

namespace Sys2Proof

/-- "Word: unsigned 16-bit value; universal unit for memory cells, registers, and instructions" (R20). -/
abbrev Word := BitVec 16

/-- A character of the terminal driver (R12), and the trap code of a TRAP word (R84). -/
abbrev Byte := BitVec 8

end Sys2Proof
end

