-- ==== Sys2Proof/Config.lean ====
section
/-! DEFINITION. What is fixed for a run: the constants of 00_scope.md R4, the shape of the parameters of R5 (the values this
machine takes stand in Machine/Params.lean), and the free values the spec leaves open. A free value is an opaque constant:
nothing in Lean can evaluate it. -/

namespace Sys2Proof

/-- The three values of the condition-flags register: "exactly one of POS, ZERO, NEG" (10_state.md R26). The rule allows the
three-valued enumeration; the bit values that BR's mask test needs are in Machine/Flags.lean. -/
inductive Cond where
  | neg
  | zero
  | pos
  deriving DecidableEq, Repr, Inhabited

/-- KBSR_SET_MODE (R5, D5): what "set the status address's bit 15" writes. -/
inductive KbsrSetMode where
  /-- the whole word 0x8000 (the spec's default) -/
  | overwrite
  /-- bit 15 is set and bits 14:0 are kept -/
  | orIn
  deriving DecidableEq, Repr

/-- UNKNOWN_TRAP (R5, 43_trap.md R149): what a trap code outside 0x20..0x25 does. -/
inductive UnknownTrap where
  /-- diagnostic, then Halted (the spec's default) -/
  | halt
  /-- the reference design: nothing happens -/
  | ignore
  deriving DecidableEq, Repr

/-- The parameters of R5 whose alternatives the spec describes. The operations of the machine take them as an argument;
the instructions run with `Machine.params`. -/
structure Params where
  /-- KBSR_SET_MODE, D5 -/
  kbsrSetMode : KbsrSetMode
  /-- POLL_CONSUMES, D6: the poll takes the character out of the queue -/
  pollConsumes : Bool
  /-- TRAP_READS_POLL, D8: each string read of PUTS and PUTSP polls -/
  trapReadsPoll : Bool
  /-- STRING_WRAP, D9: the string address wraps from 0xFFFF to 0x0000 -/
  stringWrap : Bool
  /-- TRAP_LINKS_R7, D10: TRAP writes R7 before the dispatch -/
  trapLinksR7 : Bool
  /-- UNKNOWN_TRAP, D11 -/
  unknownTrap : UnknownTrap
  /-- IN_PROMPT, D13 -/
  inPrompt : List Byte
  deriving DecidableEq, Repr

/-- RESET_PC (R4): "Initial state: program counter = 0x3000". -/
def Config.resetPc : Word := 0x3000

/-- MEM_WORDS (R4): one cell for every Word value. -/
def Config.memWords : Nat := 65536

/-- TRAP_GETC (R4). -/
def Config.trapGetc : Byte := 0x20
/-- TRAP_OUT (R4). -/
def Config.trapOut : Byte := 0x21
/-- TRAP_PUTS (R4). -/
def Config.trapPuts : Byte := 0x22
/-- TRAP_IN (R4). -/
def Config.trapIn : Byte := 0x23
/-- TRAP_PUTSP (R4). -/
def Config.trapPutsp : Byte := 0x24
/-- TRAP_HALT (R4). -/
def Config.trapHalt : Byte := 0x25

/-- Whether a trap code is one of the six the document defines (30_encoding.md R93). -/
def Config.isDefinedTrap (code : Byte) : Bool :=
  code == trapGetc || code == trapOut || code == trapPuts || code == trapIn || code == trapPutsp || code == trapHalt

/-- IN_PROMPT (R5, D13): "a list of bytes", OPEN. A free value: the document says "print a prompt" and gives no text.
Log entry 6. -/
opaque Config.inPrompt : List Byte

/-- What general register `i` holds after an external-interrupt halt, at draw `n`. A free value: 60_exceptions.md R180 and
93_implementation_defined.md U9 ("any value"). Log entry 7. -/
opaque Config.lostReg (n : Nat) (i : Nat) : Word

/-- What the program counter holds after an external-interrupt halt (R180, U9). Log entry 7. -/
opaque Config.lostPc (n : Nat) : Word

/-- What COND holds after an external-interrupt halt (R180, U9). Log entry 7. -/
opaque Config.lostCond (n : Nat) : Cond

/-- What memory holds after an external-interrupt halt (R180, U9), as a list of cell contents. Log entry 7. -/
opaque Config.lostCells (n : Nat) : List (Word × Word)

end Sys2Proof
end

