-- ==== Sys2Proof/Machine/Params.lean ====
section
/-! DEFINITION. The values this machine takes for the parameters of 00_scope.md R5 (the spec's defaults, log entry 2), and the
constants of the keyboard device (R4). -/

namespace Sys2Proof.Machine

/-- The spec's defaults (00_scope.md R5); IN_PROMPT is open. -/
def params : Params where
  kbsrSetMode := .overwrite
  pollConsumes := true
  trapReadsPoll := false
  stringWrap := true
  trapLinksR7 := false
  unknownTrap := .halt
  inPrompt := Config.inPrompt

/-- KBSR_ADDR (R4). -/
def kbsrAddr : Word := 0xFE00

/-- KBDR_ADDR (R4). -/
def kbdrAddr : Word := 0xFE02

/-- The word with bit KBSR_READY_BIT = 15 alone set (R4, D5). -/
def kbsrReady : Word := 0x8000

/-- IMAGE_MAX_BYTES (R4, 70_reset_and_hazards.md R204). -/
def imageMaxBytes : Nat := 65535

end Sys2Proof.Machine
end

