-- ==== Sys2Proof/Machine/State.lean ====
section
/-! DEFINITION. The state of the machine: everything 10_state.md gives it ("Nothing else is state"), and three fields of the
model's own (`phase`, `host`, `draws`). Plain data throughout. -/

namespace Sys2Proof.Machine

/-- The register file's general registers (10_state.md R21). -/
structure RegFile where
  r0 : Word
  r1 : Word
  r2 : Word
  r3 : Word
  r4 : Word
  r5 : Word
  r6 : Word
  r7 : Word
  deriving DecidableEq, Repr

/-- RUN (10_state.md R29). -/
inductive RunState where
  | running
  | halted
  deriving DecidableEq, Repr

/-- A synchronous exception and the value it records (60_exceptions.md R176). -/
inductive Exc where
  /-- "reserved/undefined opcode encountered", with the 4-bit opcode -/
  | illegalOpcode (op : BitVec 4)
  /-- a TRAP code outside 0x20..0x25, with the 8-bit code -/
  | unrecognizedTrapCode (code : Byte)
  deriving DecidableEq, Repr

/-- A diagnostic event (10_state.md R35); its text is the open parameter DIAG_TEXT (log entry 18). -/
inductive Diag where
  | haltNotice
  | raised (e : Exc)
  deriving DecidableEq, Repr

/-- Where inside a step the machine stands (the model's own; log entries 11 and 12). -/
inductive Phase where
  /-- between two steps: the next thing is a fetch -/
  | fetch
  /-- GETC waits inside ReadChar (60_exceptions.md R186) -/
  | getc
  /-- IN waits inside ReadChar, its prompt written (R186) -/
  | inEcho
  /-- PUTS is scanning and looks at this address next (43_trap.md R148) -/
  | puts (a : Word)
  /-- PUTSP is scanning and looks at this address next (R148) -/
  | putsp (a : Word)
  deriving DecidableEq, Repr

/-- One turn of the host between two points where the machine can see it: bytes appended to `inq`, in order, and then perhaps
`intr` set (10_state.md R33, R36; log entry 8). -/
structure HostTurn where
  keys : List Byte
  intr : Bool
  deriving DecidableEq, Repr

/-- One listed memory cell: an address and its Word. -/
abbrev Cell := Nat × Word

/-- Memory M (10_state.md R30) as the list of its cells that are not 0x0000; an unlisted address reads as 0x0000, the reset
contents of R38 (log entry 1). -/
abbrev Memory := List Cell

/-- The whole state. -/
structure State where
  /-- R0 to R7 (10_state.md R21) -/
  regs : RegFile
  /-- the program counter (R23) -/
  pc : Word
  /-- COND (R26) -/
  cond : Cond
  /-- RUN (R29) -/
  run : RunState
  /-- M (R30), the device cells 0xFE00 and 0xFE02 among it (R31) -/
  mem : Memory
  /-- pending input, oldest first (R33) -/
  inq : List Byte
  /-- the output stream, in order (R34) -/
  out : List Byte
  /-- the diagnostic stream, in order (R35) -/
  diag : List Diag
  /-- the external-interrupt request (R36) -/
  intr : Bool
  /-- where inside a step the machine stands (model's own) -/
  phase : Phase
  /-- the host's turns to come (model's own) -/
  host : List HostTurn
  /-- how many times free values were drawn (model's own) -/
  draws : Nat
  deriving DecidableEq, Repr

/-- Why a step stops with a fault. -/
inductive Fault where
  /-- Raised by the string scan of PUTS and PUTSP past address 0xFFFF when STRING_WRAP is false (43_trap.md R148, U6); no
  instruction raises it with the spec's default. Safe: the machine stops where the hardware may go on. -/
  | stringPastEnd
  deriving DecidableEq, Repr

/-- Why a step has no meaning. -/
inductive Refusal where
  /-- Raised by an arm of `exec` for an instruction without a meaning; no arm does. Safe. -/
  | notModelled (mnemonic : String)
  deriving DecidableEq, Repr

/-- The three outcomes of an instruction. -/
abbrev Result := Host.Outcome State Fault Refusal

/-- The machine after reset (10_state.md R38, 70_reset_and_hazards.md R200). `inq` is the host's and is not reset (log entry
9); `phase`, `host` and `draws` are the model's own (log entries 11, 8, 7). -/
def State.reset : State where
  regs := { r0 := 0, r1 := 0, r2 := 0, r3 := 0, r4 := 0, r5 := 0, r6 := 0, r7 := 0 }
  pc := Config.resetPc
  cond := .zero
  run := .running
  mem := []
  inq := []
  out := []
  diag := []
  intr := false
  phase := .fetch
  host := []
  draws := 0

end Sys2Proof.Machine
end

