-- ==== Sys2Proof/Syntax.lean ====
section
/-! DEFINITION. The instruction set as data: one constructor of `Instr` for each row of spec/opcode_table.json (25 rows: the
19 rows that partition the words, and the six trap routines that refine TRAP). Bits that no field covers are ignored by the
hardware (30_encoding.md R87), so no constructor holds them. -/

namespace Sys2Proof

/-- A general register: "8 general registers (index 0–7)" (10_state.md R21); all eight values are legal in every register
field (30_encoding.md R85). -/
inductive Reg where
  | r0 | r1 | r2 | r3 | r4 | r5 | r6 | r7
  deriving DecidableEq, Repr, Inhabited

/-- The sixteen values of the opcode field: fourteen classes and two reserved codes (30_encoding.md R90). -/
inductive Opcode where
  | br | add | ld | st | jsr | and | ldr | str
  | reserved8 | not | ldi | sti | jmp | reserved13 | lea | trap
  deriving DecidableEq, Repr

/-- One instruction. Operand fields keep the widths of 30_encoding.md R81. -/
inductive Instr where
  /-- BR (41_control.md R121) -/
  | br (n z p : Bool) (offset9 : BitVec 9)
  /-- ADD, register form (40_operate.md R111) -/
  | addReg (dr sr1 sr2 : Reg)
  /-- ADD, immediate form (R112) -/
  | addImm (dr sr1 : Reg) (imm5 : BitVec 5)
  /-- LD (42_load_store.md R131) -/
  | ld (dr : Reg) (offset9 : BitVec 9)
  /-- ST (R135) -/
  | st (sr : Reg) (offset9 : BitVec 9)
  /-- JSR (R123) -/
  | jsr (offset11 : BitVec 11)
  /-- JSRR (R124) -/
  | jsrr (baseR : Reg)
  /-- AND, register form (R113) -/
  | andReg (dr sr1 sr2 : Reg)
  /-- AND, immediate form (R114) -/
  | andImm (dr sr1 : Reg) (imm5 : BitVec 5)
  /-- LDR (R133) -/
  | ldr (dr baseR : Reg) (offset6 : BitVec 6)
  /-- STR (R137) -/
  | str (sr baseR : Reg) (offset6 : BitVec 6)
  /-- Reserved opcode 8 (44_reserved.md R160) -/
  | reserved8
  /-- NOT (R115) -/
  | notReg (dr sr1 : Reg)
  /-- LDI (R132) -/
  | ldi (dr : Reg) (offset9 : BitVec 9)
  /-- STI (R136) -/
  | sti (sr : Reg) (offset9 : BitVec 9)
  /-- JMP, and so RET (R122) -/
  | jmp (baseR : Reg)
  /-- Reserved opcode 13 (R161) -/
  | reserved13
  /-- LEA (R134) -/
  | lea (dr : Reg) (offset9 : BitVec 9)
  /-- TRAP with a code that is none of the six below (43_trap.md R140, R149) -/
  | trap (code : Byte)
  /-- TRAP x20 (R142) -/
  | getc
  /-- TRAP x21 (R143) -/
  | out
  /-- TRAP x22 (R144) -/
  | puts
  /-- TRAP x23, IN (R145) -/
  | inEcho
  /-- TRAP x24 (R146) -/
  | putsp
  /-- TRAP x25 (R147) -/
  | halt
  deriving DecidableEq, Repr

end Sys2Proof
end

