-- ==== Sys2Proof/Machine/Ops.lean ====
section
/-! DEFINITION. The shared operations: registers, memory with the keyboard poll in its read path (20_memory.md), the terminal
driver (00_scope.md R12), the host's turns, halting, taking an exception (R11) and the external interrupt (60_exceptions.md
R180). -/

namespace Sys2Proof.Machine

/-! ### Registers (10_state.md R21) -/

/-- `x[r]` (00_scope.md R10): an ordinary register, none is hardwired (R21). -/
def State.reg (s : State) (r : Reg) : Word :=
  match r with
  | .r0 => s.regs.r0
  | .r1 => s.regs.r1
  | .r2 => s.regs.r2
  | .r3 => s.regs.r3
  | .r4 => s.regs.r4
  | .r5 => s.regs.r5
  | .r6 => s.regs.r6
  | .r7 => s.regs.r7

/-- `x[r] <- v` (R10). -/
def State.setReg (s : State) (r : Reg) (v : Word) : State :=
  match r with
  | .r0 => { s with regs := { s.regs with r0 := v } }
  | .r1 => { s with regs := { s.regs with r1 := v } }
  | .r2 => { s with regs := { s.regs with r2 := v } }
  | .r3 => { s with regs := { s.regs with r3 := v } }
  | .r4 => { s with regs := { s.regs with r4 := v } }
  | .r5 => { s with regs := { s.regs with r5 := v } }
  | .r6 => { s with regs := { s.regs with r6 := v } }
  | .r7 => { s with regs := { s.regs with r7 := v } }

/-- `pc <- t` (R10): any Word is legal (R25). -/
def State.setPc (s : State) (t : Word) : State := { s with pc := t }

/-- The pending input replaced (R33). -/
def State.setInq (s : State) (q : List Byte) : State := { s with inq := q }

/-- The place inside the step replaced (log entry 11). -/
def State.setPhase (s : State) (ph : Phase) : State := { s with phase := ph }

/-! ### Memory (10_state.md R30) -/

/-- Every key from `lo` on, strictly rising, below 65536, and no cell holding what an unlisted address reads as. -/
def Memory.wfFrom (lo : Nat) : Memory → Bool
  | [] => true
  | (k, v) :: rest => decide (lo ≤ k) && decide (k < Config.memWords) && (v != 0#16) && Memory.wfFrom (k + 1) rest

/-- The canonical form of a memory (log entry 1). -/
def Memory.wf (m : Memory) : Bool := Memory.wfFrom 0 m

/-- The cell at key `k`; an unlisted cell holds 0x0000 (R38). -/
def Memory.read (k : Nat) : Memory → Word
  | [] => 0#16
  | (j, w) :: rest => if j = k then w else Memory.read k rest

/-- The memory with `v` at key `k`, in canonical form: a 0x0000 is not listed. -/
def Memory.write (k : Nat) (v : Word) : Memory → Memory
  | [] => if v = 0#16 then [] else [(k, v)]
  | (j, w) :: rest =>
    if k < j then (if v = 0#16 then (j, w) :: rest else (k, v) :: (j, w) :: rest)
    else if k = j then (if v = 0#16 then rest else (k, v) :: rest)
    else (j, w) :: Memory.write k v rest

/-- `MemPeek(a)`, the raw cell `M[a]`: no poll (20_memory.md R57). -/
def memPeek (a : Word) (s : State) : Word := Memory.read a.toNat s.mem

/-- `MemWrite(a, 1, v)`: `M[a] <- v` and nothing else (20_memory.md R56). -/
def memWrite (a v : Word) (s : State) : State := { s with mem := Memory.write a.toNat v s.mem }

/-! ### The host's turns and the terminal driver (00_scope.md R12, 10_state.md R33, R36) -/

/-- The host's next turn, if one is to come: its bytes join the tail of `inq` in order, then `intr` may be set. The machine
never clears `intr` (R36). -/
def hostTurn (s : State) : State :=
  match s.host with
  | [] => s
  | t :: rest => { s with inq := s.inq ++ t.keys, intr := s.intr || t.intr, host := rest }

/-- The Word of a character: zero extension (00_scope.md R9, D7). -/
def charWord (c : Byte) : Word := c.setWidth 16

/-- What a `ReadChar()` call comes to. -/
inductive ReadResult where
  /-- the oldest pending character, and the state without it -/
  | got (c : Byte) (s : State)
  /-- nothing pending: the machine waits inside the call -/
  | waiting (s : State)
  /-- nothing pending and the external interrupt recognised (60_exceptions.md R180 point 2) -/
  | interrupted (s : State)

/-- `ReadChar()` of GETC and IN, or one more turn of its wait: what the host has done by now counts (20_memory.md R62); a
pending character is taken; with none pending the interrupt ends the wait, else the wait goes on (60_exceptions.md R186). -/
def readChar (s : State) : ReadResult :=
  match (hostTurn s).inq with
  | c :: rest => .got c ((hostTurn s).setInq rest)
  | [] => if (hostTurn s).intr then .interrupted (hostTurn s) else .waiting (hostTurn s)

/-- `WriteChar(b)`: appended to `out` at once, never blocking (R12, 43_trap.md R150). -/
def writeChar (b : Byte) (s : State) : State := { s with out := s.out ++ [b] }

/-! ### The read path (20_memory.md R52, R53) -/

/-- The status word a poll that finds input writes: 0x8000, or with KBSR_SET_MODE = OrIn the old word with bit 15 set (D5). -/
def readyWord (p : Params) (old : Word) : Word :=
  match p.kbsrSetMode with
  | .overwrite => kbsrReady
  | .orIn => old ||| kbsrReady

/-- `Poll()` (20_memory.md R52): with input pending the status cell is made ready and the data cell gets the character, which
leaves the queue (POLL_CONSUMES, D6); with none the status cell is cleared and the data cell keeps its value. -/
def poll (p : Params) (s : State) : State :=
  match (hostTurn s).inq with
  | [] => memWrite kbsrAddr 0#16 (hostTurn s)
  | c :: rest =>
    (memWrite kbdrAddr (charWord c)
      (memWrite kbsrAddr (readyWord p (memPeek kbsrAddr (hostTurn s))) (hostTurn s))).setInq
      (if p.pollConsumes then rest else c :: rest)

/-- The value of `MemRead(a, 1)` (R53): the cell after the poll. -/
def memReadValue (p : Params) (a : Word) (s : State) : Word := memPeek a (poll p s)

/-- The state after a `MemRead`, which is the same at every address: the poll has run (R53, R55). -/
def memReadState (p : Params) (s : State) : State := poll p s

/-! ### Halting, exceptions, the external interrupt -/

/-- `Diag(e)` (10_state.md R35). -/
def emitDiag (e : Diag) (s : State) : State := { s with diag := s.diag ++ [e] }

/-- `RUN <- Halted` (R29). -/
def setHalted (s : State) : State := { s with run := .halted }

/-- Taking an exception, `raise E(info)` (00_scope.md R11): `Diag(E(info)); RUN <- Halted`, and nothing else; `pc` stays at
the address after the instruction (60_exceptions.md R177, D19). Nothing is saved, no mode changes, no handler runs (R182), and
there is no return (R183). -/
def raise (e : Exc) (s : State) : State := setHalted (emitDiag (.raised e) s)

/-- Memory from a list of cell contents, in canonical form. -/
def Memory.ofCells : List (Word × Word) → Memory
  | [] => []
  | (a, v) :: rest => Memory.write a.toNat v (Memory.ofCells rest)

/-- The external interrupt is recognised (60_exceptions.md R180): `RUN <- Halted`, nothing on `diag`. Registers, `pc`, `COND`
and memory are "not observable" from here on and become free values (U9, log entry 7); `out` and `diag` stay. -/
def interruptHalt (s : State) : State :=
  { s with
    run := .halted
    regs :=
      { r0 := Config.lostReg s.draws 0, r1 := Config.lostReg s.draws 1
        r2 := Config.lostReg s.draws 2, r3 := Config.lostReg s.draws 3
        r4 := Config.lostReg s.draws 4, r5 := Config.lostReg s.draws 5
        r6 := Config.lostReg s.draws 6, r7 := Config.lostReg s.draws 7 }
    pc := Config.lostPc s.draws
    cond := Config.lostCond s.draws
    mem := Memory.ofCells (Config.lostCells s.draws)
    phase := .fetch
    draws := s.draws + 1 }

/-! ### Output with its interruption points (60_exceptions.md R180 point 3) -/

/-- What a sequence of `WriteChar` calls comes to. -/
inductive Printed where
  /-- all written -/
  | done (s : State)
  /-- the external interrupt was recognised between two of them -/
  | interrupted (s : State)

/-- One `WriteChar` of a routine; before any but the routine's first (`first` false) the host has a turn and the interrupt is
examined. -/
def writeNext (first : Bool) (b : Byte) (s : State) : Printed :=
  if first then .done (writeChar b s)
  else if (hostTurn s).intr then .interrupted (hostTurn s)
  else .done (writeChar b (hostTurn s))

/-- `WriteChar` of each byte in order. -/
def printChars : Bool → List Byte → State → Printed
  | _, [], s => .done s
  | first, b :: bs, s =>
    match writeNext first b s with
    | .interrupted t => .interrupted t
    | .done t => printChars false bs t

/-! ### The string scan of PUTS and PUTSP (43_trap.md R144, R146, R148) -/

/-- What a scan, or a stretch of one, comes to. -/
inductive Scan where
  /-- a zero word was found -/
  | ended (s : State)
  /-- the external interrupt was recognised -/
  | interrupted (s : State)
  /-- no zero word so far; the next word is at `a` -/
  | unfinished (a : Word) (s : State)
  /-- the scan would pass 0xFFFF and STRING_WRAP is false -/
  | pastEnd

/-- The value of a string read: `MemPeek`, or `MemRead` under TRAP_READS_POLL (20_memory.md R57). -/
def scanValue (p : Params) (a : Word) (s : State) : Word :=
  if p.trapReadsPoll then memReadValue p a s else memPeek a s

/-- The state after a string read (R57). -/
def scanState (p : Params) (s : State) : State :=
  if p.trapReadsPoll then memReadState p s else s

/-- The string address after `a`: it wraps from 0xFFFF to 0x0000 (R148, D9), or there is none with STRING_WRAP false. -/
def scanNext (p : Params) (a : Word) : Option Word :=
  if a = 0xFFFF && !p.stringWrap then none else some (a + 1)

/-- The loop of R144 and R146 for at most the given number of words; `chars` gives the bytes a word stands for. -/
def stringLoop (p : Params) (chars : Word → List Byte) : Nat → Bool → Word → State → Scan
  | 0, _, a, s => .unfinished a s
  | n + 1, first, a, s =>
    if scanValue p a s = 0#16 then .ended (scanState p s)
    else
      match printChars first (chars (scanValue p a s)) (scanState p s) with
      | .interrupted t => .interrupted t
      | .done t =>
        match scanNext p a with
        | none => .pastEnd
        | some b => stringLoop p chars n false b t

/-- The outcome of a stretch of a scan. A scan with no end in sight goes on in the next step (log entry 12). -/
def finishScan (goOn : Word → Phase) : Scan → Result
  | .ended s => .next (s.setPhase .fetch)
  | .interrupted s => .next (interruptHalt s)
  | .unfinished a s => .next (s.setPhase (goOn a))
  | .pastEnd => .fault .stringPastEnd

end Sys2Proof.Machine
end

