-- ==== Sys2Proof/Machine/Flags.lean ====
section
/-! DEFINITION. The condition flags: the update rule (10_state.md R27), the bit values (R26) and BR's test (41_control.md
R121). -/

namespace Sys2Proof.Machine

/-- The flag a Word sets: "NEG if bit 15 of v is 1; else ZERO if v = 0; else POS" (R27). -/
def flagOf (v : Word) : Cond :=
  if v.getLsbD 15 then .neg else if v = 0#16 then .zero else .pos

/-- `setcc(v)` (R27). -/
def setcc (v : Word) (s : State) : State := { s with cond := flagOf v }

/-- FLAG_ENC (R26, D2): NEG = 100, ZERO = 010, POS = 001. -/
def flagBits : Cond → BitVec 3
  | .neg => 0b100
  | .zero => 0b010
  | .pos => 0b001

/-- The three condition bits of a BR, n leftmost (R121). -/
def condMask (n z p : Bool) : BitVec 3 := BitVec.ofBool n ++ BitVec.ofBool z ++ BitVec.ofBool p

/-- "(flags & branch-condition-bits) ≠ 0" (R121). -/
def branchTaken (n z p : Bool) (c : Cond) : Bool := (condMask n z p &&& flagBits c) != 0#3

/-- A flag-triggering register write (10_state.md R28): the write, then `setcc` of the value written. -/
def writeResult (dr : Reg) (v : Word) (s : State) : State := setcc v (s.setReg dr v)

end Sys2Proof.Machine
end

