-- ==== Sys2Proof/Machine/Operands.lean ====
section
/-! DEFINITION. Operand forms: sign extension (00_scope.md R8, 30_encoding.md R84) and the effective addresses of
42_load_store.md R130, all modulo 2^16. -/

namespace Sys2Proof.Machine

/-- `sext_N(v)` (00_scope.md R8). -/
def sext {n : Nat} (v : BitVec n) : Word := v.signExtend 16

/-- PC-relative (R130): `pc` already holds the incremented value. -/
def eaPcRel9 (offset9 : BitVec 9) (s : State) : Word := s.pc + sext offset9

/-- The target of JSR (41_control.md R123). -/
def eaPcRel11 (offset11 : BitVec 11) (s : State) : Word := s.pc + sext offset11

/-- Base plus offset (R130). -/
def eaBase (baseR : Reg) (offset6 : BitVec 6) (s : State) : Word := s.reg baseR + sext offset6

/-- Indirect (R130): the pointer, read through the polling read path. The state after that read is `memReadState`. -/
def eaIndirect (p : Params) (offset9 : BitVec 9) (s : State) : Word := memReadValue p (eaPcRel9 offset9 s) s

/-- LINK_REGISTER (00_scope.md R4): written by JSR and JSRR. -/
def linkReg : Reg := .r7

/-- The argument and result register of the trap routines (10_state.md R22). -/
def trapReg : Reg := .r0

/-- The low character of a Word (43_trap.md R143, R144, R146). -/
def lowByte (w : Word) : Byte := w.extractLsb' 0 8

/-- The high character of a Word (R146). -/
def highByte (w : Word) : Byte := w.extractLsb' 8 8

end Sys2Proof.Machine
end

