-- ==== Sys2Proof/Machine/Control.lean ====
section
/-! DEFINITION. BR, JMP, JSR, JSRR (41_control.md). `pc` holds the address of the instruction plus 1 (R120). None changes
COND, none raises an exception. -/

namespace Sys2Proof.Machine

/-- BR (R121). -/
def execBr (n z p : Bool) (offset9 : BitVec 9) (s : State) : Result :=
  .next (if branchTaken n z p s.cond then s.setPc (eaPcRel9 offset9 s) else s)

/-- JMP, and so RET (R122). -/
def execJmp (baseR : Reg) (s : State) : Result :=
  .next (s.setPc (s.reg baseR))

/-- JSR (R123): the link, then the jump; the write of R7 sets no flag (10_state.md R28). -/
def execJsr (offset11 : BitVec 11) (s : State) : Result :=
  .next ((s.setReg linkReg s.pc).setPc (eaPcRel11 offset11 s))

/-- JSRR (R124): BaseR is read after R7 is written, so `JSRR R7` falls through (D18, 90_conflicts.md C7). -/
def execJsrr (baseR : Reg) (s : State) : Result :=
  .next ((s.setReg linkReg s.pc).setPc ((s.setReg linkReg s.pc).reg baseR))

end Sys2Proof.Machine
end

