-- ==== Sys2Proof/Machine/LoadStore.lean ====
section
/-! DEFINITION. LD, LDI, LDR, LEA, ST, STI, STR (42_load_store.md). Loads read through the polling read path, stores never
poll; no access can fault (R130). -/

namespace Sys2Proof.Machine

/-- A load from an address: the read, then the flag-triggering write of DR (R130). -/
def loadFrom (p : Params) (dr : Reg) (ea : Word) (s : State) : State :=
  writeResult dr (memReadValue p ea s) (memReadState p s)

/-- LD (R131). -/
def execLd (dr : Reg) (offset9 : BitVec 9) (s : State) : Result :=
  .next (loadFrom params dr (eaPcRel9 offset9 s) s)

/-- LDI (R132): the pointer's read polls, and the operand's read polls again. -/
def execLdi (dr : Reg) (offset9 : BitVec 9) (s : State) : Result :=
  .next (loadFrom params dr (eaIndirect params offset9 s) (memReadState params s))

/-- LDR (R133): the address uses BaseR's old value. -/
def execLdr (dr baseR : Reg) (offset6 : BitVec 6) (s : State) : Result :=
  .next (loadFrom params dr (eaBase baseR offset6 s) s)

/-- LEA (R134): no memory access; the flags are updated. -/
def execLea (dr : Reg) (offset9 : BitVec 9) (s : State) : Result :=
  .next (writeResult dr (eaPcRel9 offset9 s) s)

/-- ST (R135). -/
def execSt (sr : Reg) (offset9 : BitVec 9) (s : State) : Result :=
  .next (memWrite (eaPcRel9 offset9 s) (s.reg sr) s)

/-- STI (R136): the pointer's read polls. -/
def execSti (sr : Reg) (offset9 : BitVec 9) (s : State) : Result :=
  .next (memWrite (eaIndirect params offset9 s) (s.reg sr) (memReadState params s))

/-- STR (R137). -/
def execStr (sr baseR : Reg) (offset6 : BitVec 6) (s : State) : Result :=
  .next (memWrite (eaBase baseR offset6 s) (s.reg sr) s)

end Sys2Proof.Machine
end

