-- ==== Sys2Proof/Machine/Operate.lean ====
section
/-! DEFINITION. ADD, AND, NOT (40_operate.md). Both sources are read before DR is written. No exception, no memory. -/

namespace Sys2Proof.Machine

/-- ADD, register form (R111). -/
def execAddReg (dr sr1 sr2 : Reg) (s : State) : Result :=
  .next (writeResult dr (s.reg sr1 + s.reg sr2) s)

/-- ADD, immediate form (R112). -/
def execAddImm (dr sr1 : Reg) (imm5 : BitVec 5) (s : State) : Result :=
  .next (writeResult dr (s.reg sr1 + sext imm5) s)

/-- AND, register form (R113). -/
def execAndReg (dr sr1 sr2 : Reg) (s : State) : Result :=
  .next (writeResult dr (s.reg sr1 &&& s.reg sr2) s)

/-- AND, immediate form (R114): the mask is the sign-extended immediate. -/
def execAndImm (dr sr1 : Reg) (imm5 : BitVec 5) (s : State) : Result :=
  .next (writeResult dr (s.reg sr1 &&& sext imm5) s)

/-- NOT (R115): every bit inverted. -/
def execNotReg (dr sr1 : Reg) (s : State) : Result :=
  .next (writeResult dr (~~~ s.reg sr1) s)

end Sys2Proof.Machine
end

