-- ==== Sys2Proof/Machine/Reserved.lean ====
section
/-! DEFINITION. The two reserved opcodes (44_reserved.md): each raises IllegalOpcode. -/

namespace Sys2Proof.Machine

/-- Reserved opcode 8 (R160). -/
def execReserved8 (s : State) : Result := .next (raise (.illegalOpcode 8) s)

/-- Reserved opcode 13 (R161). -/
def execReserved13 (s : State) : Result := .next (raise (.illegalOpcode 13) s)

end Sys2Proof.Machine
end

