-- ==== Sys2Proof/Machine/Trap.lean ====
section
/-! DEFINITION. TRAP and the six built-in routines (43_trap.md). A routine runs inside the engine; `pc` already holds the
address after the TRAP and is not changed (R140). -/

namespace Sys2Proof.Machine

/-- What TRAP itself does before the dispatch: nothing (R141, D10), or the link with TRAP_LINKS_R7. -/
def trapEntry (p : Params) (s : State) : State :=
  if p.trapLinksR7 then s.setReg linkReg s.pc else s

/-- The character read by GETC or IN goes into R0, zero-extended, with the flags from it (R142, R145). -/
def storeChar (c : Byte) (s : State) : State := (writeResult trapReg (charWord c) s).setPhase .fetch

/-- GETC from its `ReadChar` on (R142): the character, or the wait, or the interrupt. -/
def getcRead (s : State) : State :=
  match readChar s with
  | .got c t => storeChar c t
  | .waiting t => t.setPhase .getc
  | .interrupted t => interruptHalt t

/-- IN from its `ReadChar` on (R145): the read, the echo, the store. The echo is the routine's first `WriteChar` only when
the prompt is empty (log entry 15). -/
def inRead (p : Params) (s : State) : State :=
  match readChar s with
  | .got c t =>
    match writeNext p.inPrompt.isEmpty c t with
    | .done u => storeChar c u
    | .interrupted u => interruptHalt u
  | .waiting t => t.setPhase .inEcho
  | .interrupted t => interruptHalt t

/-- IN from its start (R145): the prompt, then the rest. -/
def inStart (p : Params) (s : State) : State :=
  match printChars true p.inPrompt s with
  | .done t => inRead p t
  | .interrupted t => interruptHalt t

/-- PUTS writes the low byte of each word (R144). -/
def putsChars (w : Word) : List Byte := [lowByte w]

/-- PUTSP writes the low byte, "then high byte if nonzero" (R146, D25). -/
def putspChars (w : Word) : List Byte :=
  if highByte w = 0#8 then [lowByte w] else [lowByte w, highByte w]

/-- The most words one step of a scan looks at: every cell once. A string that ends, ends within them (log entry 12). -/
def scanLimit : Nat := Config.memWords

/-- PUTS at address `a`; `first` when nothing has been written yet (R144). -/
def putsScan (p : Params) (first : Bool) (a : Word) (s : State) : Result :=
  finishScan .puts (stringLoop p putsChars scanLimit first a s)

/-- PUTSP at address `a` (R146). -/
def putspScan (p : Params) (first : Bool) (a : Word) (s : State) : Result :=
  finishScan .putsp (stringLoop p putspChars scanLimit first a s)

/-- HALT (R147): `Diag(HaltNotice); RUN <- Halted`. -/
def haltTrap (s : State) : State := setHalted (emitDiag .haltNotice s)

/-- An unrecognised trap code (R149), under either value of UNKNOWN_TRAP. -/
def unknownTrap (u : UnknownTrap) (code : Byte) (s : State) : State :=
  match u with
  | .halt => raise (.unrecognizedTrapCode code) s
  | .ignore => s

/-- The routine GETC (R142). -/
def routineGetc (p : Params) (s : State) : Result := .next (getcRead (trapEntry p s))

/-- The routine OUT (R143). -/
def routineOut (p : Params) (s : State) : Result :=
  .next (writeChar (lowByte ((trapEntry p s).reg trapReg)) (trapEntry p s))

/-- The routine PUTS (R144). -/
def routinePuts (p : Params) (s : State) : Result :=
  putsScan p true ((trapEntry p s).reg trapReg) (trapEntry p s)

/-- The routine IN (R145). -/
def routineIn (p : Params) (s : State) : Result := .next (inStart p (trapEntry p s))

/-- The routine PUTSP (R146). -/
def routinePutsp (p : Params) (s : State) : Result :=
  putspScan p true ((trapEntry p s).reg trapReg) (trapEntry p s)

/-- The routine HALT (R147). -/
def routineHalt (p : Params) (s : State) : Result := .next (haltTrap (trapEntry p s))

/-- The dispatch of a TRAP on its code (R140). The decoder gives the six defined codes constructors of their own, so of these
arms a decoded `trap` reaches the last (log entry 19). -/
def execTrap (code : Byte) (s : State) : Result :=
  if code = Config.trapGetc then routineGetc params s
  else if code = Config.trapOut then routineOut params s
  else if code = Config.trapPuts then routinePuts params s
  else if code = Config.trapIn then routineIn params s
  else if code = Config.trapPutsp then routinePutsp params s
  else if code = Config.trapHalt then routineHalt params s
  else .next (unknownTrap params.unknownTrap code (trapEntry params s))

/-- GETC, TRAP x20 (R142). -/
def execGetc (s : State) : Result := routineGetc params s

/-- OUT, TRAP x21 (R143). -/
def execOut (s : State) : Result := routineOut params s

/-- PUTS, TRAP x22 (R144). -/
def execPuts (s : State) : Result := routinePuts params s

/-- IN, TRAP x23 (R145). -/
def execIn (s : State) : Result := routineIn params s

/-- PUTSP, TRAP x24 (R146). -/
def execPutsp (s : State) : Result := routinePutsp params s

/-- HALT, TRAP x25 (R147). -/
def execHalt (s : State) : Result := routineHalt params s

/-- One more turn of the wait of GETC (60_exceptions.md R186). -/
def resumeGetc (s : State) : Result := .next (getcRead s)

/-- One more turn of the wait of IN (R186); the prompt has been written. -/
def resumeIn (s : State) : Result := .next (inRead params s)

/-- The scan of PUTS goes on at `a` (R148); something has been written already. -/
def resumePuts (a : Word) (s : State) : Result := putsScan params false a s

/-- The scan of PUTSP goes on at `a` (R148). -/
def resumePutsp (a : Word) (s : State) : Result := putspScan params false a s

end Sys2Proof.Machine
end

