-- ==== Sys2Proof/WellFormed.lean ====
section
/-! DEFINITION. Which terms of `Instr` stand for a word. The field types already hold every operand in its range; the one
check is that `trap` is not used for a code that has a constructor of its own (spec/opcode_table.json: the six trap rows
refine the TRAP row). -/

namespace Sys2Proof

/-- The term is the one the decoder gives for its word. -/
def Instr.wellFormed : Instr → Bool
  | .br _ _ _ _ => true
  | .addReg _ _ _ => true
  | .addImm _ _ _ => true
  | .ld _ _ => true
  | .st _ _ => true
  | .jsr _ => true
  | .jsrr _ => true
  | .andReg _ _ _ => true
  | .andImm _ _ _ => true
  | .ldr _ _ _ => true
  | .str _ _ _ => true
  | .reserved8 => true
  | .notReg _ _ => true
  | .ldi _ _ => true
  | .sti _ _ => true
  | .jmp _ => true
  | .reserved13 => true
  | .lea _ _ => true
  | .trap code => !Config.isDefinedTrap code
  | .getc => true
  | .out => true
  | .puts => true
  | .inEcho => true
  | .putsp => true
  | .halt => true

end Sys2Proof
end

