-- ==== Sys2Proof/Decode.lean ====
section
/-! DEFINITION. The decoder, "pure bit-field extraction from an instruction word" (30_encoding.md R80), total on every Word,
and the encoder, written from the same formats (R82, R91). Field positions: R81. Opcode values, the order of n, z, p and the
JSR mode bit: the spec's own, from general knowledge (R90, D1 to D3; log entry 3). Ignored bits: R87 (log entry 4). -/

namespace Sys2Proof

/-- The register a 3-bit field names (R85). -/
def Reg.ofBits (b : BitVec 3) : Reg :=
  match b.toNat with
  | 0 => .r0
  | 1 => .r1
  | 2 => .r2
  | 3 => .r3
  | 4 => .r4
  | 5 => .r5
  | 6 => .r6
  | _ => .r7

/-- The 3-bit index of a register (R85). -/
def Reg.toBits : Reg → BitVec 3
  | .r0 => 0
  | .r1 => 1
  | .r2 => 2
  | .r3 => 3
  | .r4 => 4
  | .r5 => 5
  | .r6 => 6
  | .r7 => 7

/-- OPCODE_MAP (R90): the class of each 4-bit value. -/
def Opcode.ofBits (b : BitVec 4) : Opcode :=
  match b.toNat with
  | 0 => .br
  | 1 => .add
  | 2 => .ld
  | 3 => .st
  | 4 => .jsr
  | 5 => .and
  | 6 => .ldr
  | 7 => .str
  | 8 => .reserved8
  | 9 => .not
  | 10 => .ldi
  | 11 => .sti
  | 12 => .jmp
  | 13 => .reserved13
  | 14 => .lea
  | _ => .trap

/-- OPCODE_MAP (R90), the other way. -/
def Opcode.toBits : Opcode → BitVec 4
  | .br => 0b0000
  | .add => 0b0001
  | .ld => 0b0010
  | .st => 0b0011
  | .jsr => 0b0100
  | .and => 0b0101
  | .ldr => 0b0110
  | .str => 0b0111
  | .reserved8 => 0b1000
  | .not => 0b1001
  | .ldi => 0b1010
  | .sti => 0b1011
  | .jmp => 0b1100
  | .reserved13 => 0b1101
  | .lea => 0b1110
  | .trap => 0b1111

/-- "top 4 bits → opcode": bits 15:12 (R81). -/
def opcodeField (w : Word) : BitVec 4 := w.extractLsb' 12 4

/-- DR, or SR of a store: bits 11:9 (R81). -/
def drField (w : Word) : Reg := Reg.ofBits (w.extractLsb' 9 3)

/-- SR1, or BaseR: bits 8:6 (R81). -/
def sr1Field (w : Word) : Reg := Reg.ofBits (w.extractLsb' 6 3)

/-- SR2: bits 2:0 (R81). -/
def sr2Field (w : Word) : Reg := Reg.ofBits (w.extractLsb' 0 3)

/-- IMM5: bits 4:0 (R81). -/
def imm5Field (w : Word) : BitVec 5 := w.extractLsb' 0 5

/-- offset6: bits 5:0 (R81). -/
def offset6Field (w : Word) : BitVec 6 := w.extractLsb' 0 6

/-- PCoffset9: bits 8:0 (R81). -/
def offset9Field (w : Word) : BitVec 9 := w.extractLsb' 0 9

/-- PCoffset11: bits 10:0 (R81). -/
def offset11Field (w : Word) : BitVec 11 := w.extractLsb' 0 11

/-- trapvect8: bits 7:0 (R81). -/
def trapField (w : Word) : Byte := w.extractLsb' 0 8

/-- The instruction of a TRAP word with this code: one of the six routines (43_trap.md R140), or `trap` for one of the other
250 codes (R93). -/
def decodeTrap (code : Byte) : Instr :=
  if code = Config.trapGetc then .getc
  else if code = Config.trapOut then .out
  else if code = Config.trapPuts then .puts
  else if code = Config.trapIn then .inEcho
  else if code = Config.trapPutsp then .putsp
  else if code = Config.trapHalt then .halt
  else .trap code

/-- The instruction of a Word (R90, R91): every Word has one. ADD and AND split on bit 5, JSR and JSRR on bit 11. -/
def decode (w : Word) : Instr :=
  match Opcode.ofBits (opcodeField w) with
  | .br => .br (w.getLsbD 11) (w.getLsbD 10) (w.getLsbD 9) (offset9Field w)
  | .add =>
    if w.getLsbD 5 then .addImm (drField w) (sr1Field w) (imm5Field w)
    else .addReg (drField w) (sr1Field w) (sr2Field w)
  | .ld => .ld (drField w) (offset9Field w)
  | .st => .st (drField w) (offset9Field w)
  | .jsr => if w.getLsbD 11 then .jsr (offset11Field w) else .jsrr (sr1Field w)
  | .and =>
    if w.getLsbD 5 then .andImm (drField w) (sr1Field w) (imm5Field w)
    else .andReg (drField w) (sr1Field w) (sr2Field w)
  | .ldr => .ldr (drField w) (sr1Field w) (offset6Field w)
  | .str => .str (drField w) (sr1Field w) (offset6Field w)
  | .reserved8 => .reserved8
  | .not => .notReg (drField w) (sr1Field w)
  | .ldi => .ldi (drField w) (offset9Field w)
  | .sti => .sti (drField w) (offset9Field w)
  | .jmp => .jmp (sr1Field w)
  | .reserved13 => .reserved13
  | .lea => .lea (drField w) (offset9Field w)
  | .trap => decodeTrap (trapField w)

/-- A field of a word with its lowest bit at position `lo`, every other bit zero. -/
def place {n : Nat} (lo : Nat) (field : BitVec n) : Word := field.setWidth 16 <<< lo

/-- Format RRR (R82); the ignored bits 4:3 are zeros. -/
def packRRR (op : Opcode) (dr sr1 sr2 : Reg) : Word :=
  place 12 op.toBits ||| place 9 dr.toBits ||| place 6 sr1.toBits ||| place 0 sr2.toBits

/-- Format RRI (R82): bit 5 is 1. -/
def packRRI (op : Opcode) (dr sr1 : Reg) (imm5 : BitVec 5) : Word :=
  place 12 op.toBits ||| place 9 dr.toBits ||| place 6 sr1.toBits ||| place 5 (1 : BitVec 1) ||| place 0 imm5

/-- Format RR (R82); the ignored bits 5:0 are zeros. -/
def packRR (op : Opcode) (dr sr1 : Reg) : Word :=
  place 12 op.toBits ||| place 9 dr.toBits ||| place 6 sr1.toBits

/-- Formats BASE and JSRR (R82), bit 11 zero; the ignored bits are zeros. -/
def packBase (op : Opcode) (baseR : Reg) : Word := place 12 op.toBits ||| place 6 baseR.toBits

/-- Format BASEOFF (R82). -/
def packBaseOff (op : Opcode) (dr baseR : Reg) (offset6 : BitVec 6) : Word :=
  place 12 op.toBits ||| place 9 dr.toBits ||| place 6 baseR.toBits ||| place 0 offset6

/-- Format PCREL9 (R82). -/
def packPcRel9 (op : Opcode) (dr : Reg) (offset9 : BitVec 9) : Word :=
  place 12 op.toBits ||| place 9 dr.toBits ||| place 0 offset9

/-- Format BRANCH (R82): n, z, p in bits 11, 10, 9. -/
def packBranch (n z p : Bool) (offset9 : BitVec 9) : Word :=
  place 12 Opcode.br.toBits ||| place 11 (BitVec.ofBool n) ||| place 10 (BitVec.ofBool z) |||
    place 9 (BitVec.ofBool p) ||| place 0 offset9

/-- Format JSR11 (R82): mode bit 11 is 1. -/
def packJsr11 (offset11 : BitVec 11) : Word :=
  place 12 Opcode.jsr.toBits ||| place 11 (1 : BitVec 1) ||| place 0 offset11

/-- Format TRAP (R82); the ignored bits 11:8 are zeros. -/
def packTrap (code : Byte) : Word := place 12 Opcode.trap.toBits ||| place 0 code

/-- Format NONE (R82); the ignored bits 11:0 are zeros. -/
def packNone (op : Opcode) : Word := place 12 op.toBits

/-- The word of an instruction, every ignored bit zero (R82, R91). -/
def encode : Instr → Word
  | .br n z p offset9 => packBranch n z p offset9
  | .addReg dr sr1 sr2 => packRRR .add dr sr1 sr2
  | .addImm dr sr1 imm5 => packRRI .add dr sr1 imm5
  | .ld dr offset9 => packPcRel9 .ld dr offset9
  | .st sr offset9 => packPcRel9 .st sr offset9
  | .jsr offset11 => packJsr11 offset11
  | .jsrr baseR => packBase .jsr baseR
  | .andReg dr sr1 sr2 => packRRR .and dr sr1 sr2
  | .andImm dr sr1 imm5 => packRRI .and dr sr1 imm5
  | .ldr dr baseR offset6 => packBaseOff .ldr dr baseR offset6
  | .str sr baseR offset6 => packBaseOff .str sr baseR offset6
  | .reserved8 => packNone .reserved8
  | .notReg dr sr1 => packRR .not dr sr1
  | .ldi dr offset9 => packPcRel9 .ldi dr offset9
  | .sti sr offset9 => packPcRel9 .sti sr offset9
  | .jmp baseR => packBase .jmp baseR
  | .reserved13 => packNone .reserved13
  | .lea dr offset9 => packPcRel9 .lea dr offset9
  | .trap code => packTrap code
  | .getc => packTrap Config.trapGetc
  | .out => packTrap Config.trapOut
  | .puts => packTrap Config.trapPuts
  | .inEcho => packTrap Config.trapIn
  | .putsp => packTrap Config.trapPutsp
  | .halt => packTrap Config.trapHalt

/-- The bits of a word that some field of its instruction covers: the mask of the ignored bits of R87, inverted. -/
def coveredBits : Instr → Word
  | .br _ _ _ _ => 0xFFFF
  | .addReg _ _ _ => 0xFFE7
  | .addImm _ _ _ => 0xFFFF
  | .ld _ _ => 0xFFFF
  | .st _ _ => 0xFFFF
  | .jsr _ => 0xFFFF
  | .jsrr _ => 0xF9C0
  | .andReg _ _ _ => 0xFFE7
  | .andImm _ _ _ => 0xFFFF
  | .ldr _ _ _ => 0xFFFF
  | .str _ _ _ => 0xFFFF
  | .reserved8 => 0xF000
  | .notReg _ _ => 0xFFC0
  | .ldi _ _ => 0xFFFF
  | .sti _ _ => 0xFFFF
  | .jmp _ => 0xF1C0
  | .reserved13 => 0xF000
  | .lea _ _ => 0xFFFF
  | .trap _ => 0xF0FF
  | .getc => 0xF0FF
  | .out => 0xF0FF
  | .puts => 0xF0FF
  | .inEcho => 0xF0FF
  | .putsp => 0xF0FF
  | .halt => 0xF0FF

/-- The rows of R91: the 19 base rows of the table. -/
inductive Row where
  | br | addReg | addImm | ld | st | jsr | jsrr | andReg | andImm | ldr | str
  | reserved8 | notReg | ldi | sti | jmp | reserved13 | lea | trap
  deriving DecidableEq, Repr

/-- The row's mask (R91). -/
def Row.mask : Row → Word
  | .br => 0xF000
  | .addReg => 0xF020
  | .addImm => 0xF020
  | .ld => 0xF000
  | .st => 0xF000
  | .jsr => 0xF800
  | .jsrr => 0xF800
  | .andReg => 0xF020
  | .andImm => 0xF020
  | .ldr => 0xF000
  | .str => 0xF000
  | .reserved8 => 0xF000
  | .notReg => 0xF000
  | .ldi => 0xF000
  | .sti => 0xF000
  | .jmp => 0xF000
  | .reserved13 => 0xF000
  | .lea => 0xF000
  | .trap => 0xF000

/-- The row's match value (R91). -/
def Row.pattern : Row → Word
  | .br => 0x0000
  | .addReg => 0x1000
  | .addImm => 0x1020
  | .ld => 0x2000
  | .st => 0x3000
  | .jsr => 0x4800
  | .jsrr => 0x4000
  | .andReg => 0x5000
  | .andImm => 0x5020
  | .ldr => 0x6000
  | .str => 0x7000
  | .reserved8 => 0x8000
  | .notReg => 0x9000
  | .ldi => 0xA000
  | .sti => 0xB000
  | .jmp => 0xC000
  | .reserved13 => 0xD000
  | .lea => 0xE000
  | .trap => 0xF000

/-- The row of R91 an instruction belongs to; the six routines belong to TRAP. -/
def Instr.row : Instr → Row
  | .br _ _ _ _ => .br
  | .addReg _ _ _ => .addReg
  | .addImm _ _ _ => .addImm
  | .ld _ _ => .ld
  | .st _ _ => .st
  | .jsr _ => .jsr
  | .jsrr _ => .jsrr
  | .andReg _ _ _ => .andReg
  | .andImm _ _ _ => .andImm
  | .ldr _ _ _ => .ldr
  | .str _ _ _ => .str
  | .reserved8 => .reserved8
  | .notReg _ _ => .notReg
  | .ldi _ _ => .ldi
  | .sti _ _ => .sti
  | .jmp _ => .jmp
  | .reserved13 => .reserved13
  | .lea _ _ => .lea
  | .trap _ => .trap
  | .getc => .trap
  | .out => .trap
  | .puts => .trap
  | .inEcho => .trap
  | .putsp => .trap
  | .halt => .trap

/-- The Word stored for an instruction whose table bits are `w`: the low `nbits` of `w`, the bits above them zero. -/
def tableWord (nbits w : Nat) : Word := BitVec.ofNat 16 (w % 2 ^ nbits)

/-- What the decoder reads from the bits `w` of a table row of `nbits` bits; an instruction here is one Word, so a row of more
than 16 bits is none of this hardware's. -/
def decodeTableWord (nbits w : Nat) : Option Instr :=
  if nbits ≤ 16 then some (decode (tableWord nbits w)) else none

end Sys2Proof
end

