-- ==== Sys2Proof/Machine/Fetch.lean ====
section
/-! DEFINITION. The fetch of 60_exceptions.md R171: the instruction Word through the polling read path, then `pc` incremented
with 16-bit wraparound. -/

namespace Sys2Proof.Machine

/-- `ir <- MemRead(pc, 1)` (R171). -/
def fetchWord (p : Params) (s : State) : Word := memReadValue p s.pc s

/-- The state after the fetch: the poll has run and `pc <- (pc + 1) mod 2^16` (R171, 10_state.md R23, R24). -/
def fetchState (p : Params) (s : State) : State := (memReadState p s).setPc (s.pc + 1)

/-- The host's turn before a step, without its interrupt. -/
def quietTurns : List HostTurn → List HostTurn
  | [] => []
  | t :: rest => { t with intr := false } :: rest

/-- `s` about to fetch `v`: the Word at `pc`, the machine running between two steps, no interrupt to be recognised first. -/
def placeWord (v : Word) (s : State) : State :=
  { memWrite s.pc v s with run := .running, phase := .fetch, intr := false, host := quietTurns s.host }

end Sys2Proof.Machine
end

