-- ==== Sys2Proof/Machine/Step.lean ====
section
/-! DEFINITION. One step (60_exceptions.md R171). -/

namespace Sys2Proof.Machine

/-- One step. Halted: none is taken and nothing changes (R173, log entry 13). Between two steps: the host's turn, then the
external interrupt is examined (R180 point 1, R181), then fetch, decode, execute (R171). Inside an instruction that has not
completed: one more turn of it (log entry 11). -/
def step (s : State) : Host.Outcome State Fault Refusal :=
  match s.run with
  | .halted => .next s
  | .running =>
    match s.phase with
    | .fetch =>
      if (hostTurn s).intr then .next (interruptHalt (hostTurn s))
      else exec (decode (fetchWord params (hostTurn s))) (fetchState params (hostTurn s))
    | .getc => resumeGetc s
    | .inEcho => resumeIn s
    | .puts a => resumePuts a s
    | .putsp a => resumePutsp a s

/-- The host's test entry: `s` with the instruction whose table bits are `w` where the next step fetches (log entry 17). -/
def State.withFetchWord (s : State) (nbits w : Nat) : State := placeWord (tableWord nbits w) s

end Sys2Proof.Machine
end

