-- ==== Sys2Proof/Machine/Loader.lean ====
section
/-! DEFINITION. The image load (70_reset_and_hazards.md R201 to R205): what the host does once, after reset and before the first
step. It writes memory only and runs no poll. -/

namespace Sys2Proof.Machine

/-- The load-time errors (R205); HostIOFailure is the host's own and out of scope (00_scope.md R3). -/
inductive LoadError where
  | imageInvalid
  | imageOverflowsAddressSpace
  deriving DecidableEq, Repr

/-- Two image bytes as a Word, "big-endian": the first byte is bits 15:8 (R202, 20_memory.md R58). -/
def imageWord (hi lo : Byte) : Word := hi ++ lo

/-- The image's words, whole pairs only; a trailing odd byte is dropped (R203, D15). -/
def imageWords : List Byte → List Word
  | hi :: lo :: rest => imageWord hi lo :: imageWords rest
  | _ => []

/-- Consecutive cells from key `k` on. -/
def writeWords (k : Nat) : List Word → Memory → Memory
  | [], m => m
  | w :: ws, m => writeWords (k + 1) ws (Memory.write k w m)

/-- `load(B, L)` (R203): the error, or the state with the image in memory. `none` is an absent buffer. On an error no step is
ever taken (R201), so there is no state. -/
def load (image : Option (List Byte)) (s : State) : Except LoadError State :=
  match image with
  | none => .error .imageInvalid
  | some bytes =>
    if bytes.length = 0 ∨ bytes.length > imageMaxBytes then .error .imageInvalid
    else
      match bytes with
      | b0 :: b1 :: body =>
        if (imageWord b0 b1).toNat + (imageWords body).length > Config.memWords then
          .error .imageOverflowsAddressSpace
        else .ok { s with mem := writeWords (imageWord b0 b1).toNat (imageWords body) s.mem }
      | _ => .error .imageInvalid

/-- Start-up (R201): reset, then one image load. -/
def boot (image : Option (List Byte)) : Except LoadError State := load image State.reset

end Sys2Proof.Machine
end

