-- ==== Sys2Proof/Safety.lean ====
section
/-! DEFINITION. What counts as a safe run, and the other terms the statements use: the machine's invariant, the frames, the
host's behaviour, and the tables of 10_state.md R22, R28 and 20_memory.md R54 as functions of the instruction. -/

namespace Sys2Proof.Machine

/-! ### The invariant -/

/-- The machine's invariant: memory is in canonical form, and a halted machine is inside no instruction. -/
def State.Inv (s : State) : Prop := s.mem.wf = true ∧ (s.run = .halted → s.phase = .fetch)

/-- A step is safe when it answers a next state: it neither faults nor is refused. -/
def StepsSafely (s : State) : Prop := ∃ t, step s = .next t

/-! ### Frames: what a transition from `s` to `t` leaves alone -/

/-- Every register but those listed. -/
def SameRegs (written : List Reg) (s t : State) : Prop := ∀ r, r ∉ written → t.reg r = s.reg r

/-- Every memory cell but those listed. -/
def SameCells (stored : List Word) (s t : State) : Prop := ∀ a, a ∉ stored → memPeek a t = memPeek a s

/-- The host's side: pending input, the interrupt request, the turns to come. -/
def SameHost (s t : State) : Prop := t.inq = s.inq ∧ t.intr = s.intr ∧ t.host = s.host

/-- Both streams. -/
def SameStreams (s t : State) : Prop := t.out = s.out ∧ t.diag = s.diag

/-- The run state, the place inside the step, the draws. -/
def SameControl (s t : State) : Prop := t.run = s.run ∧ t.phase = s.phase ∧ t.draws = s.draws

/-- All but the registers listed, `pc`, `COND` and memory. -/
def SameSurroundings (written : List Reg) (s t : State) : Prop :=
  SameRegs written s t ∧ SameHost s t ∧ SameStreams s t ∧ SameControl s t

/-! ### The host -/

/-- No external interrupt is pending or to come. -/
def Uninterrupted (s : State) : Prop := s.intr = false ∧ ∀ u ∈ s.host, u.intr = false

/-- The host makes no move: nothing arrives and no interrupt is pending. -/
def QuietHost (s : State) : Prop := s.intr = false ∧ s.host = []

/-- The bytes of the host's next `k` turns, in order. -/
def arrivals (k : Nat) (s : State) : List Byte := (s.host.take k).flatMap HostTurn.keys

/-- The host has had `k` turns. -/
def HostAdvanced (k : Nat) (s t : State) : Prop := t.host = s.host.drop k ∧ t.inq = s.inq ++ arrivals k s

/-! ### What an instruction does -/

/-- The flag-triggering write of `v` to `dr`, and nothing else (10_state.md R28). -/
def WritesResult (dr : Reg) (v : Word) (s t : State) : Prop :=
  t.reg dr = v ∧ t.cond = flagOf v ∧ t.pc = s.pc ∧ SameCells [] s t ∧ SameSurroundings [dr] s t

/-- A load of DR from `ea`, read by a poll of its own from `u`: the value is the cell after that poll, memory and the host are
as the poll left them, all else is unchanged (42_load_store.md R130). -/
def LoadsFrom (dr : Reg) (ea : Word) (u t : State) : Prop :=
  t.reg dr = memPeek ea (poll params u) ∧ t.cond = flagOf (memPeek ea (poll params u)) ∧ t.pc = u.pc ∧
  SameRegs [dr] u t ∧ SameCells [] (poll params u) t ∧ SameCells [kbsrAddr, kbdrAddr] u t ∧
  SameHost (poll params u) t ∧ SameStreams u t ∧ SameControl u t

/-- A store of `v` to `ea` from `u`, and nothing else. -/
def StoresTo (ea v : Word) (u t : State) : Prop :=
  memPeek ea t = v ∧ SameCells [ea] u t ∧ t.pc = u.pc ∧ t.cond = u.cond ∧ SameSurroundings [] u t

/-- Only the output gained bytes, and the host had `k` turns; the instruction is complete. -/
def Writes (bytes : List Byte) (k : Nat) (s t : State) : Prop :=
  t.out = s.out ++ bytes ∧ HostAdvanced k s t ∧ t.intr = s.intr ∧ t.phase = .fetch ∧
  t.pc = s.pc ∧ t.cond = s.cond ∧ t.run = s.run ∧ t.diag = s.diag ∧ t.draws = s.draws ∧
  SameRegs [] s t ∧ SameCells [] s t

/-- The character `c` has gone to R0 with the flags from it, and the instruction is complete; streams and host apart, the rest
is as in `s` (43_trap.md R142, R145). -/
def StoresChar (c : Byte) (s t : State) : Prop :=
  (t.reg .r0).toNat = c.toNat ∧ t.cond = (if c = 0#8 then .zero else .pos) ∧ t.phase = .fetch ∧ t.pc = s.pc ∧
  t.run = s.run ∧ t.diag = s.diag ∧ t.draws = s.draws ∧ SameRegs [.r0] s t ∧ SameCells [] s t

/-- The machine goes on waiting at `ph` with everything but the terminal as in `s`. -/
def WaitsAt (ph : Phase) (s t : State) : Prop :=
  t.phase = ph ∧ t.inq = [] ∧ t.pc = s.pc ∧ t.cond = s.cond ∧ t.run = s.run ∧ t.diag = s.diag ∧ t.draws = s.draws ∧
  SameRegs [] s t ∧ SameCells [] s t

/-- The machine was halted by the external interrupt; registers, `pc`, `COND` and memory are not observable
(60_exceptions.md R180), so nothing is said of them. -/
def InterruptedFrom (s t : State) : Prop := t.run = .halted ∧ t.intr = true ∧ t.diag = s.diag

/-! ### Strings in memory (43_trap.md R144, R146, R148) -/

/-- The `i`-th word of the string at `a`; addresses wrap (R148). -/
def stringWord (s : State) (a : Word) (i : Nat) : Word := memPeek (a + BitVec.ofNat 16 i) s

/-- The string at `a` has `n` words before its zero word. -/
def StringEndsAt (s : State) (a : Word) (n : Nat) : Prop :=
  n < 65536 ∧ (∀ i, i < n → stringWord s a i ≠ 0#16) ∧ stringWord s a n = 0#16

/-- What one step of a scan at `a` has before it (log entry 12): the `n` words of a string that ends, after which the machine
stands between two steps; or, with no zero word anywhere, one round of all 65536 words, after which the scan goes on. -/
def ScanAhead (goOn : Word → Phase) (s : State) (a : Word) (n : Nat) (ph : Phase) : Prop :=
  (StringEndsAt s a n ∧ ph = .fetch) ∨ ((∀ b, memPeek b s ≠ 0#16) ∧ n = 65536 ∧ ph = goOn a)

/-- The characters of the first `n` words of the string at `a`. -/
def stringBytes (chars : Word → List Byte) (s : State) (a : Word) (n : Nat) : List Byte :=
  (List.range n).flatMap fun i => chars (stringWord s a i)

/-- A routine with `bytes` to write wrote them all and the machine stands at `ph`, or the interrupt cut it short after a proper
prefix of at least `least` bytes (60_exceptions.md R180 point 3). -/
def WritesOrIsCut (bytes : List Byte) (least : Nat) (ph : Phase) (s t : State) : Prop :=
  (t.run = .running ∧ t.phase = ph ∧ t.out = s.out ++ bytes ∧ t.diag = s.diag ∧ SameRegs [] s t ∧ SameCells [] s t) ∨
  (InterruptedFrom s t ∧ ∃ m, least ≤ m ∧ m < bytes.length ∧ t.out = s.out ++ bytes.take m)

/-! ### Tables of the spec -/

/-- The registers an instruction writes (10_state.md R22). -/
def writtenRegs : Instr → List Reg
  | .br _ _ _ _ => []
  | .addReg dr _ _ => [dr]
  | .addImm dr _ _ => [dr]
  | .ld dr _ => [dr]
  | .st _ _ => []
  | .jsr _ => [.r7]
  | .jsrr _ => [.r7]
  | .andReg dr _ _ => [dr]
  | .andImm dr _ _ => [dr]
  | .ldr dr _ _ => [dr]
  | .str _ _ _ => []
  | .reserved8 => []
  | .notReg dr _ => [dr]
  | .ldi dr _ => [dr]
  | .sti _ _ => []
  | .jmp _ => []
  | .reserved13 => []
  | .lea dr _ => [dr]
  | .trap _ => []
  | .getc => [.r0]
  | .out => []
  | .puts => []
  | .inEcho => [.r0]
  | .putsp => []
  | .halt => []

/-- The registers an instruction reads (10_state.md R22). -/
def readRegs : Instr → List Reg
  | .br _ _ _ _ => []
  | .addReg _ sr1 sr2 => [sr1, sr2]
  | .addImm _ sr1 _ => [sr1]
  | .ld _ _ => []
  | .st sr _ => [sr]
  | .jsr _ => []
  | .jsrr baseR => [baseR]
  | .andReg _ sr1 sr2 => [sr1, sr2]
  | .andImm _ sr1 _ => [sr1]
  | .ldr _ baseR _ => [baseR]
  | .str sr baseR _ => [sr, baseR]
  | .reserved8 => []
  | .notReg _ sr1 => [sr1]
  | .ldi _ _ => []
  | .sti sr _ => [sr]
  | .jmp baseR => [baseR]
  | .reserved13 => []
  | .lea _ _ => []
  | .trap _ => []
  | .getc => []
  | .out => [.r0]
  | .puts => [.r0]
  | .inEcho => []
  | .putsp => [.r0]
  | .halt => []

/-- The register whose write is flag-triggering (10_state.md R28), for the instructions that have one. -/
def flagWrite : Instr → Option Reg
  | .br _ _ _ _ => none
  | .addReg dr _ _ => some dr
  | .addImm dr _ _ => some dr
  | .ld dr _ => some dr
  | .st _ _ => none
  | .jsr _ => none
  | .jsrr _ => none
  | .andReg dr _ _ => some dr
  | .andImm dr _ _ => some dr
  | .ldr dr _ _ => some dr
  | .str _ _ _ => none
  | .reserved8 => none
  | .notReg dr _ => some dr
  | .ldi dr _ => some dr
  | .sti _ _ => none
  | .jmp _ => none
  | .reserved13 => none
  | .lea dr _ => some dr
  | .trap _ => none
  | .getc => some .r0
  | .out => none
  | .puts => none
  | .inEcho => some .r0
  | .putsp => none
  | .halt => none

/-- The `MemRead` calls, and so the polls, of one step of the instruction, its fetch included (20_memory.md R54). -/
def pollCount : Instr → Nat
  | .br _ _ _ _ => 1
  | .addReg _ _ _ => 1
  | .addImm _ _ _ => 1
  | .ld _ _ => 2
  | .st _ _ => 1
  | .jsr _ => 1
  | .jsrr _ => 1
  | .andReg _ _ _ => 1
  | .andImm _ _ _ => 1
  | .ldr _ _ _ => 2
  | .str _ _ _ => 1
  | .reserved8 => 1
  | .notReg _ _ => 1
  | .ldi _ _ => 3
  | .sti _ _ => 2
  | .jmp _ => 1
  | .reserved13 => 1
  | .lea _ _ => 1
  | .trap _ => 1
  | .getc => 1
  | .out => 1
  | .puts => 1
  | .inEcho => 1
  | .putsp => 1
  | .halt => 1

/-- The cell a store writes (42_load_store.md R135, R136, R137), by the functions its meaning uses. -/
def storedCells (i : Instr) (s : State) : List Word :=
  match i with
  | .st _ offset9 => [eaPcRel9 offset9 s]
  | .sti _ offset9 => [eaIndirect params offset9 s]
  | .str _ baseR offset6 => [eaBase baseR offset6 s]
  | .br _ _ _ _ => []
  | .addReg _ _ _ => []
  | .addImm _ _ _ => []
  | .ld _ _ => []
  | .jsr _ => []
  | .jsrr _ => []
  | .andReg _ _ _ => []
  | .andImm _ _ _ => []
  | .ldr _ _ _ => []
  | .reserved8 => []
  | .notReg _ _ => []
  | .ldi _ _ => []
  | .jmp _ => []
  | .reserved13 => []
  | .lea _ _ => []
  | .trap _ => []
  | .getc => []
  | .out => []
  | .puts => []
  | .inEcho => []
  | .putsp => []
  | .halt => []

/-- The program counter an instruction leaves, from the state after its fetch (10_state.md R24; 41_control.md R121 to R124).
`JSRR R7` reads the R7 it has just written. -/
def pcAfter (i : Instr) (s : State) : Word :=
  match i with
  | .br n z p offset9 =>
    if (n = true ∧ s.cond = .neg) ∨ (z = true ∧ s.cond = .zero) ∨ (p = true ∧ s.cond = .pos) then s.pc + sext offset9
    else s.pc
  | .jmp baseR => s.reg baseR
  | .jsr offset11 => s.pc + sext offset11
  | .jsrr baseR => if baseR = .r7 then s.pc else s.reg baseR
  | .addReg _ _ _ => s.pc
  | .addImm _ _ _ => s.pc
  | .ld _ _ => s.pc
  | .st _ _ => s.pc
  | .andReg _ _ _ => s.pc
  | .andImm _ _ _ => s.pc
  | .ldr _ _ _ => s.pc
  | .str _ _ _ => s.pc
  | .reserved8 => s.pc
  | .notReg _ _ => s.pc
  | .ldi _ _ => s.pc
  | .sti _ _ => s.pc
  | .reserved13 => s.pc
  | .lea _ _ => s.pc
  | .trap _ => s.pc
  | .getc => s.pc
  | .out => s.pc
  | .puts => s.pc
  | .inEcho => s.pc
  | .putsp => s.pc
  | .halt => s.pc

end Sys2Proof.Machine
end

