-- ==== Sys2Proof/Certificates/Slice0/Obligations.lean ====
section
/-! DEFINITION. The statements for the provers. Each docstring names the spec's rule; where a clause rests on a decision of the
spec (92_eei_decisions.md) or on a choice of the model, it names the decision or the log entry. -/

open Sys2Proof Sys2Proof.Machine

/-! ## Encoding -/

/-- Decoding the word of a well-formed instruction gives the instruction back, every operand at every value (30_encoding.md
R82, R91). -/
def Obligations.DecodeEncodeRoundTrip : Prop :=
  ∀ i : Instr, i.wellFormed = true → decode (encode i) = i

/-- Every Word decodes to a well-formed instruction whose word is that Word with its ignored bits zero, and a Word that agrees
with it on the covered bits decodes to the same instruction (R87, decision D4). -/
def Obligations.IgnoredBitsDoNotDecode : Prop :=
  ∀ w : Word, (decode w).wellFormed = true ∧ encode (decode w) = w &&& coveredBits (decode w) ∧
    ∀ w' : Word, w' &&& coveredBits (decode w) = w &&& coveredBits (decode w) → decode w' = decode w

/-- The rows of R91 are disjoint and cover every Word: a Word matches a row exactly when it decodes to an instruction of that
row (values of decision D1). -/
def Obligations.RowsPartitionTheWords : Prop :=
  ∀ (w : Word) (r : Row), w &&& r.mask = r.pattern ↔ (decode w).row = r

/-- Words written out in the spec decode to the instructions the spec gives for them (95_test_vectors.md; values of D1 to
D3). -/
def Obligations.SpecWordsDecode : Prop :=
  decode 0x1401 = .addReg .r2 .r0 .r1 ∧ decode 0x1236 = .addImm .r1 .r0 0x16 ∧ decode 0x5642 = .andReg .r3 .r1 .r2 ∧
  decode 0x923F = .notReg .r1 .r0 ∧ decode 0x09FD = .br true false false 0x1FD ∧ decode 0xC1C0 = .jmp .r7 ∧
  decode 0x4802 = .jsr 2 ∧ decode 0x4080 = .jsrr .r2 ∧ decode 0x673F = .ldr .r3 .r4 0x3F ∧ decode 0xA401 = .ldi .r2 1 ∧
  decode 0xB401 = .sti .r2 1 ∧ decode 0xFF25 = .halt ∧ decode 0xF026 = .trap 0x26 ∧ decode 0x8ABC = .reserved8

/-- The words 0x0000 to 0x01FF are no-operations once fetched (R94; the order n, z, p is decision D2). -/
def Obligations.NoOperationWords : Prop :=
  ∀ (w : Word) (s : State), w.toNat < 0x200 → exec (decode w) s = .next s

/-! ## Values, flags, registers, memory -/

/-- R8, for every N it names. -/
def Obligations.SignExtensionRule : Prop :=
  (∀ v : BitVec 5, (sext v).toNat = if v.getLsbD 4 then v.toNat + (2 ^ 16 - 2 ^ 5) else v.toNat) ∧
  (∀ v : BitVec 6, (sext v).toNat = if v.getLsbD 5 then v.toNat + (2 ^ 16 - 2 ^ 6) else v.toNat) ∧
  (∀ v : BitVec 9, (sext v).toNat = if v.getLsbD 8 then v.toNat + (2 ^ 16 - 2 ^ 9) else v.toNat) ∧
  (∀ v : BitVec 11, (sext v).toNat = if v.getLsbD 10 then v.toNat + (2 ^ 16 - 2 ^ 11) else v.toNat) ∧
  sext (0b11111 : BitVec 5) = 0xFFFF ∧ sext (0b00001 : BitVec 5) = 0x0001

/-- R27: the flag for each range of the value written, and `setcc` changes nothing but `COND`. -/
def Obligations.FlagUpdateRule : Prop :=
  ∀ (v : Word) (s : State),
    (v.getLsbD 15 = true → (setcc v s).cond = .neg) ∧
    (v.getLsbD 15 = false → v = 0#16 → (setcc v s).cond = .zero) ∧
    (v.getLsbD 15 = false → v ≠ 0#16 → (setcc v s).cond = .pos) ∧
    ((setcc v s).cond = .neg ↔ 0x8000 ≤ v.toNat) ∧
    ((setcc v s).cond = .zero ↔ v.toNat = 0) ∧
    ((setcc v s).cond = .pos ↔ 1 ≤ v.toNat ∧ v.toNat ≤ 0x7FFF) ∧
    { setcc v s with cond := s.cond } = s

/-- R21: a register written reads back, no other register changes, none is hardwired, and nothing else changes. -/
def Obligations.RegisterWriteIsLocal : Prop :=
  ∀ (s : State) (d r : Reg) (v : Word),
    (s.setReg d v).reg r = (if r = d then v else s.reg r) ∧ { s.setReg d v with regs := s.regs } = s

/-- R56: `M[a] <- v` and nothing else, at every address, the device cells among them: no poll, no input consumed. What the
store left at 0xFE00 is never read by a MemRead, whatever it was; what it left at 0xFE02 is read until a poll finds input. -/
def Obligations.MemWriteStoresOneCell : Prop :=
  ∀ (s : State) (a v : Word), s.mem.wf = true →
    (∀ b, memPeek b (memWrite a v s) = if b = a then v else memPeek b s) ∧
    { memWrite a v s with mem := s.mem } = s ∧
    (∀ v' b : Word, memReadValue params b (memWrite kbsrAddr v s) = memReadValue params b (memWrite kbsrAddr v' s)) ∧
    ((hostTurn s).inq = [] → memReadValue params kbdrAddr (memWrite kbdrAddr v s) = v)

/-- One turn of the host (10_state.md R33, R36; 20_memory.md R62; its form in State is log entry 8): its bytes join the tail of
the queue in order, `intr` may be set and is never cleared, and registers, memory and streams are not touched. -/
def Obligations.HostTurnMovesOnlyTheHostSide : Prop :=
  ∀ s : State,
    (s.host = [] → hostTurn s = s) ∧
    (∀ u rest, s.host = u :: rest →
      (hostTurn s).inq = s.inq ++ u.keys ∧ ((hostTurn s).intr = true ↔ s.intr = true ∨ u.intr = true) ∧
      (hostTurn s).host = rest) ∧
    { hostTurn s with inq := s.inq, intr := s.intr, host := s.host } = s

/-- R52 with its decisions D5, D6, D7: what a poll does when input is pending at it and when none is, at every cell, and that
it changes nothing but the two cells, the queue and what the host's turn itself changes. -/
def Obligations.PollRewritesTheDeviceCells : Prop :=
  ∀ s : State, s.mem.wf = true →
    ((hostTurn s).inq = [] →
      memPeek kbsrAddr (poll params s) = 0x0000 ∧ (poll params s).inq = [] ∧ SameCells [kbsrAddr] s (poll params s)) ∧
    (∀ c rest, (hostTurn s).inq = c :: rest →
      memPeek kbsrAddr (poll params s) = 0x8000 ∧ (memPeek kbdrAddr (poll params s)).toNat = c.toNat ∧
      (poll params s).inq = rest ∧ SameCells [kbsrAddr, kbdrAddr] s (poll params s)) ∧
    { poll params s with mem := s.mem, inq := (hostTurn s).inq } = hostTurn s

/-- R53: a MemRead at any address runs the poll first and returns the cell after it: the device cells as the poll has just left
them, any ordinary cell as it was. -/
def Obligations.MemReadPollsAtEveryAddress : Prop :=
  ∀ (s : State) (a : Word), s.mem.wf = true →
    memReadState params s = poll params s ∧ memReadValue params a s = memPeek a (poll params s) ∧
    (a ≠ kbsrAddr → a ≠ kbdrAddr → memReadValue params a s = memPeek a s)

/-! ## Operate and control instructions -/

/-- ADD, both forms (40_operate.md R110, R111, R112; wrap: decision D16): the sum modulo 2^16, flags from it, nothing else. -/
def Obligations.AddWritesTheSum : Prop :=
  (∀ (dr sr1 sr2 : Reg) (s : State), ∃ t v, exec (.addReg dr sr1 sr2) s = .next t ∧
    v.toNat = ((s.reg sr1).toNat + (s.reg sr2).toNat) % 65536 ∧ WritesResult dr v s t) ∧
  (∀ (dr sr1 : Reg) (imm5 : BitVec 5) (s : State), ∃ t v, exec (.addImm dr sr1 imm5) s = .next t ∧
    v.toNat = ((s.reg sr1).toNat + (sext imm5).toNat) % 65536 ∧ WritesResult dr v s t)

/-- AND, both forms (R113, R114): every bit of the result is the conjunction of the operands' bits. -/
def Obligations.AndWritesTheConjunction : Prop :=
  (∀ (dr sr1 sr2 : Reg) (s : State), ∃ t v, exec (.andReg dr sr1 sr2) s = .next t ∧
    (∀ j, v.getLsbD j = ((s.reg sr1).getLsbD j && (s.reg sr2).getLsbD j)) ∧ WritesResult dr v s t) ∧
  (∀ (dr sr1 : Reg) (imm5 : BitVec 5) (s : State), ∃ t v, exec (.andImm dr sr1 imm5) s = .next t ∧
    (∀ j, v.getLsbD j = ((s.reg sr1).getLsbD j && (sext imm5).getLsbD j)) ∧ WritesResult dr v s t)

/-- NOT (R115): `0xFFFF - x[SR1]`. -/
def Obligations.NotWritesTheComplement : Prop :=
  ∀ (dr sr1 : Reg) (s : State), ∃ t v, exec (.notReg dr sr1) s = .next t ∧
    v.toNat = 0xFFFF - (s.reg sr1).toNat ∧ WritesResult dr v s t

/-- LEA (42_load_store.md R134): the address is the result, the flags are updated, memory is not accessed. -/
def Obligations.LeaWritesTheAddress : Prop :=
  ∀ (dr : Reg) (offset9 : BitVec 9) (s : State), ∃ t v, exec (.lea dr offset9) s = .next t ∧
    v.toNat = (s.pc.toNat + (sext offset9).toNat) % 65536 ∧ WritesResult dr v s t

/-- BR (41_control.md R121, as the rule states it without bit values): taken exactly when a condition bit meets its flag. -/
def Obligations.BranchIsTakenOnItsFlags : Prop :=
  ∀ (n z p : Bool) (offset9 : BitVec 9) (s : State), ∃ t, exec (.br n z p offset9) s = .next t ∧
    t.pc.toNat =
      (if (n = true ∧ s.cond = .neg) ∨ (z = true ∧ s.cond = .zero) ∨ (p = true ∧ s.cond = .pos)
        then (s.pc.toNat + (sext offset9).toNat) % 65536 else s.pc.toNat) ∧
    t.cond = s.cond ∧ SameCells [] s t ∧ SameSurroundings [] s t

/-- JMP, and RET when BaseR is R7 (R122): the target is the register, R7 is not written. -/
def Obligations.JmpGoesToTheBaseRegister : Prop :=
  ∀ (baseR : Reg) (s : State), ∃ t, exec (.jmp baseR) s = .next t ∧
    t.pc = s.reg baseR ∧ t.cond = s.cond ∧ SameCells [] s t ∧ SameSurroundings [] s t

/-- JSR (R123): R7 gets the incremented pc, the flags stay. -/
def Obligations.JsrLinksAndJumps : Prop :=
  ∀ (offset11 : BitVec 11) (s : State), ∃ t, exec (.jsr offset11) s = .next t ∧
    t.reg .r7 = s.pc ∧ t.pc.toNat = (s.pc.toNat + (sext offset11).toNat) % 65536 ∧
    t.cond = s.cond ∧ SameCells [] s t ∧ SameSurroundings [.r7] s t

/-- JSRR (R124, decision D18): R7 is written first and BaseR is read after it, so with BaseR = R7 the target is the address
after the instruction. -/
def Obligations.JsrrLinksThenReadsTheBase : Prop :=
  ∀ (baseR : Reg) (s : State), ∃ t, exec (.jsrr baseR) s = .next t ∧
    t.reg .r7 = s.pc ∧ t.pc = (if baseR = .r7 then s.pc else s.reg baseR) ∧
    t.cond = s.cond ∧ SameCells [] s t ∧ SameSurroundings [.r7] s t

/-! ## Loads and stores -/

/-- LD and LDR (R131, R133): the operand is read by one poll of its own from the effective address; for LDR the address uses
BaseR's old value. -/
def Obligations.LoadsReadThroughThePoll : Prop :=
  (∀ (dr : Reg) (offset9 : BitVec 9) (s : State), s.mem.wf = true →
    ∃ t, exec (.ld dr offset9) s = .next t ∧ LoadsFrom dr (s.pc + sext offset9) s t) ∧
  (∀ (dr baseR : Reg) (offset6 : BitVec 6) (s : State), s.mem.wf = true →
    ∃ t, exec (.ldr dr baseR offset6) s = .next t ∧ LoadsFrom dr (s.reg baseR + sext offset6) s t)

/-- LDI (R132): the pointer is read by one poll, the operand by another, in that order; the flags come from the operand. -/
def Obligations.LdiReadsTwice : Prop :=
  ∀ (dr : Reg) (offset9 : BitVec 9) (s : State), s.mem.wf = true →
    ∃ t, exec (.ldi dr offset9) s = .next t ∧
      LoadsFrom dr (memPeek (s.pc + sext offset9) (poll params s)) (poll params s) t ∧
      SameCells [kbsrAddr, kbdrAddr] s t ∧ SameRegs [dr] s t

/-- ST and STR (R135, R137): one cell is written with the register, at the address the meaning computes, without a poll. -/
def Obligations.StoresWriteOneCell : Prop :=
  (∀ (sr : Reg) (offset9 : BitVec 9) (s : State), s.mem.wf = true →
    ∃ t, exec (.st sr offset9) s = .next t ∧ StoresTo (s.pc + sext offset9) (s.reg sr) s t) ∧
  (∀ (sr baseR : Reg) (offset6 : BitVec 6) (s : State), s.mem.wf = true →
    ∃ t, exec (.str sr baseR offset6) s = .next t ∧ StoresTo (s.reg baseR + sext offset6) (s.reg sr) s t)

/-- STI (R136): the pointer is read by one poll, then the cell it names is written; every other cell is as that poll left it,
so only the two device cells can differ beside it. -/
def Obligations.StiWritesThroughThePointer : Prop :=
  ∀ (sr : Reg) (offset9 : BitVec 9) (s : State), s.mem.wf = true →
    ∃ t, exec (.sti sr offset9) s = .next t ∧
      StoresTo (eaIndirect params offset9 s) (s.reg sr) (poll params s) t ∧
      eaIndirect params offset9 s = memPeek (s.pc + sext offset9) (poll params s) ∧
      SameCells [kbsrAddr, kbdrAddr, eaIndirect params offset9 s] s t ∧ SameRegs [] s t

/-! ## TRAP -/

/-- GETC (43_trap.md R142; zero extension is decision D7): with a character pending at its ReadChar it completes with R0 and
the flags from it and nothing echoed; with none it waits, or the interrupt ends it (60_exceptions.md R186, R180 point 2, log
entries 11 and 14). -/
def Obligations.GetcReadsOneCharacter : Prop :=
  ∀ s : State,
    (∀ c rest, (hostTurn s).inq = c :: rest →
      ∃ t, exec .getc s = .next t ∧ StoresChar c s t ∧ t.out = s.out ∧ t.inq = rest ∧
        t.host = (hostTurn s).host ∧ t.intr = (hostTurn s).intr) ∧
    ((hostTurn s).inq = [] → (hostTurn s).intr = false →
      ∃ t, exec .getc s = .next t ∧ WaitsAt .getc s t ∧ t.out = s.out) ∧
    ((hostTurn s).inq = [] → (hostTurn s).intr = true →
      ∃ t, exec .getc s = .next t ∧ InterruptedFrom s t ∧ t.out = s.out)

/-- The wait of GETC, one turn of it (60_exceptions.md R186, R180 point 2, log entry 11): a character that has arrived ends
it as GETC ends (zero extension: decision D7), also where the interrupt came in the same turn (log entry 14); the interrupt ends it with R0 and COND not to be
relied on; else it goes on, polling nothing. -/
def Obligations.GetcWaitEndsWithInputOrInterrupt : Prop :=
  ∀ s : State, s.run = .running → s.phase = .getc →
    (∀ c rest, (hostTurn s).inq = c :: rest →
      ∃ t, step s = .next t ∧ StoresChar c s t ∧ t.out = s.out ∧ t.inq = rest) ∧
    ((hostTurn s).inq = [] → (hostTurn s).intr = false →
      ∃ t, step s = .next t ∧ WaitsAt .getc s t ∧ t.out = s.out ∧ (s.host = [] → t = s)) ∧
    ((hostTurn s).inq = [] → (hostTurn s).intr = true →
      ∃ t, step s = .next t ∧ InterruptedFrom s t ∧ t.out = s.out)

/-- IN (43_trap.md R145, order of decision D27, zero extension D7), whatever the open prompt IN_PROMPT is (log entry 6) and with
no interrupt: prompt, read, echo, R0, flags. The read sees what has arrived by the host's turns before it: one at each point between two
WriteChar calls of the prompt, one at the ReadChar (log entry 8). With nothing pending it waits with the prompt written (log
entry 11). -/
def Obligations.InPromptsReadsAndEchoes : Prop :=
  ∀ s : State, Uninterrupted s →
    (∀ c rest, s.inq ++ arrivals (Config.inPrompt.length - 1 + 1) s = c :: rest →
      ∃ t, exec .inEcho s = .next t ∧ StoresChar c s t ∧ t.out = s.out ++ Config.inPrompt ++ [c] ∧ t.intr = false ∧
        ∃ late, t.inq = rest ++ late ∧ (s.host = [] → late = [])) ∧
    (s.inq ++ arrivals (Config.inPrompt.length - 1 + 1) s = [] →
      ∃ t, exec .inEcho s = .next t ∧ WaitsAt .inEcho s t ∧ t.out = s.out ++ Config.inPrompt ∧ t.intr = false)

/-- The wait of IN, one turn of it (R145, R186, R180, log entry 11): a character ends it with its echo (order D27, zero
extension D7), the interrupt ends it, else it goes on. A character that is pending with the interrupt set, or coming, is taken (log entry 14), and the interrupt is
examined once more right before its echo, unless the prompt is empty (log entry 15): then nothing is echoed. Of the queue the
character is gone, and what the turn before the echo brings (log entry 8) stands behind the rest. -/
def Obligations.InWaitEndsWithInputOrInterrupt : Prop :=
  ∀ s : State, s.run = .running → s.phase = .inEcho →
    (∀ c rest, (hostTurn s).inq = c :: rest → Uninterrupted s →
      ∃ t, step s = .next t ∧ StoresChar c s t ∧ t.out = s.out ++ [c] ∧ t.intr = false ∧
        ∃ late, t.inq = rest ++ late ∧ (s.host = [] → late = [])) ∧
    (∀ c rest, (hostTurn s).inq = c :: rest →
      ∃ t, step s = .next t ∧
        if Config.inPrompt = [] ∨ (hostTurn (hostTurn s)).intr = false then
          StoresChar c s t ∧ t.out = s.out ++ [c] ∧
            t.inq = rest ++ arrivals (if Config.inPrompt = [] then 0 else 1) (hostTurn s)
        else InterruptedFrom s t ∧ t.out = s.out) ∧
    ((hostTurn s).inq = [] → (hostTurn s).intr = false →
      ∃ t, step s = .next t ∧ WaitsAt .inEcho s t ∧ t.out = s.out ∧ (s.host = [] → t = s)) ∧
    ((hostTurn s).inq = [] → (hostTurn s).intr = true →
      ∃ t, step s = .next t ∧ InterruptedFrom s t ∧ t.out = s.out) ∧
    (∀ t, step s = .next t → t.run = .halted → InterruptedFrom s t ∧ t.out = s.out)

/-- OUT (R143): the low byte of R0 is written and nothing else changes. -/
def Obligations.OutWritesTheLowByte : Prop :=
  ∀ s : State, ∃ t b, exec .out s = .next t ∧ b.toNat = (s.reg .r0).toNat % 256 ∧ t.out = s.out ++ [b] ∧
    t.diag = s.diag ∧ t.pc = s.pc ∧ t.cond = s.cond ∧ SameCells [] s t ∧ SameRegs [] s t ∧ SameHost s t ∧ SameControl s t

/-- PUTS (R144; wrap and plain reads are decisions D9 and D8), with no interrupt: the low byte of every word before the first
zero word, at any place and of any length; R0 and the flags stay. The host has a turn between two WriteChar calls
(log entry 8). -/
def Obligations.PutsWritesTheString : Prop :=
  ∀ (s : State) (n : Nat), Uninterrupted s → StringEndsAt s (s.reg .r0) n →
    ∃ t, exec .puts s = .next t ∧
      Writes ((List.range n).map fun i => (stringWord s (s.reg .r0) i).setWidth 8) (n - 1) s t

/-- PUTSP (R146, decisions D8, D9, D25), with no interrupt: for every word before the first zero word its low byte, and then
its high byte if that is not zero. The host's turns: log entry 8. -/
def Obligations.PutspWritesPackedCharacters : Prop :=
  ∀ (s : State) (n : Nat), Uninterrupted s → StringEndsAt s (s.reg .r0) n →
    ∃ t bytes, exec .putsp s = .next t ∧
      bytes = ((List.range n).flatMap fun i =>
        let w := stringWord s (s.reg .r0) i
        if w.toNat / 256 = 0 then [BitVec.ofNat 8 (w.toNat % 256)]
        else [BitVec.ofNat 8 (w.toNat % 256), BitVec.ofNat 8 (w.toNat / 256)]) ∧
      Writes bytes (bytes.length - 1) s t

/-- A string with no zero word anywhere (R148, U7), with no interrupt: the routine never completes. Each step writes one more
round of all 65536 words and stands at the same address again (log entry 12); no later instruction is fetched. -/
def Obligations.EndlessStringNeverCompletes : Prop :=
  ∀ s : State, Uninterrupted s → (∀ a, memPeek a s ≠ 0#16) →
    (∃ t, exec .puts s = .next t ∧ t.phase = .puts (s.reg .r0) ∧
      t.out = s.out ++ stringBytes putsChars s (s.reg .r0) 65536 ∧ SameRegs [] s t ∧ SameCells [] s t ∧ t.run = s.run) ∧
    (∃ t, exec .putsp s = .next t ∧ t.phase = .putsp (s.reg .r0) ∧
      t.out = s.out ++ stringBytes putspChars s (s.reg .r0) 65536 ∧ SameRegs [] s t ∧ SameCells [] s t ∧ t.run = s.run) ∧
    (∀ a, s.run = .running → s.phase = .puts a →
      ∃ t, step s = .next t ∧ t.phase = .puts a ∧ t.out = s.out ++ stringBytes putsChars s a 65536 ∧ t.run = .running ∧
        SameRegs [] s t ∧ SameCells [] s t ∧ Uninterrupted t) ∧
    (∀ a, s.run = .running → s.phase = .putsp a →
      ∃ t, step s = .next t ∧ t.phase = .putsp a ∧ t.out = s.out ++ stringBytes putspChars s a 65536 ∧ t.run = .running ∧
        SameRegs [] s t ∧ SameCells [] s t ∧ Uninterrupted t)

/-- The external interrupt inside PUTS, PUTSP or IN, whatever the host does (R150, R148; 60_exceptions.md R180 point 3, decision
D14). PUTS and PUTSP, begun at R0 or gone on with at `a` (log entry 12), on a string that ends and on one that does not: the
step writes all it has before it, or the machine is halted with a proper prefix of that in `out`, at least one byte where the
routine began, and no event in `diag` (wrap and plain string reads: decisions D9, D8). IN, if it halts: a prefix of the prompt, at least one byte of it if it has any; from its
wait, nothing more, for nothing is echoed (log entry 15). -/
def Obligations.InterruptedRoutineLeavesAPrefix : Prop :=
  ∀ (s t : State) (a : Word) (n : Nat) (ph : Phase), s.run = .running →
    (ScanAhead .puts s (s.reg .r0) n ph → exec .puts s = .next t →
      WritesOrIsCut (stringBytes putsChars s (s.reg .r0) n) 1 ph s t) ∧
    (ScanAhead .putsp s (s.reg .r0) n ph → exec .putsp s = .next t →
      WritesOrIsCut (stringBytes putspChars s (s.reg .r0) n) 1 ph s t) ∧
    (ScanAhead .puts s a n ph → s.phase = .puts a → step s = .next t →
      WritesOrIsCut (stringBytes putsChars s a n) 0 ph s t) ∧
    (ScanAhead .putsp s a n ph → s.phase = .putsp a → step s = .next t →
      WritesOrIsCut (stringBytes putspChars s a n) 0 ph s t) ∧
    (exec .inEcho s = .next t → t.run = .halted →
      InterruptedFrom s t ∧ ∃ m, m ≤ Config.inPrompt.length ∧ (Config.inPrompt ≠ [] → 0 < m) ∧
        t.out = s.out ++ Config.inPrompt.take m) ∧
    (s.phase = .inEcho → step s = .next t → t.run = .halted → InterruptedFrom s t ∧ t.out = s.out)

/-- HALT (43_trap.md R147; the final pc is decision D19): the notice goes to `diag`, RUN becomes Halted, nothing else
changes. -/
def Obligations.HaltStopsTheMachine : Prop :=
  ∀ s : State, exec .halt s = .next { s with diag := s.diag ++ [.haltNotice], run := .halted }

/-- An unrecognised trap code (R149), all 250 of them: with UNKNOWN_TRAP = Halt, the spec's default (decision D11), the
exception is raised and nothing else changes; with Ignore nothing changes at all. -/
def Obligations.UnknownTrapRaises : Prop :=
  ∀ (code : Byte) (s : State), code.toNat < 0x20 ∨ 0x25 < code.toNat →
    exec (.trap code) s = .next { s with diag := s.diag ++ [.raised (.unrecognizedTrapCode code)], run := .halted } ∧
    Machine.unknownTrap .ignore code s = s

/-- The dispatch of R140, as the step makes it, by decoding: a Word is one of the six routines exactly when it is
`1111 xxxx vvvvvvvv` with that routine's code (bits 11:8 ignored: decision D4; the opcode: D1), and every other TRAP word is
`trap` with its code. The ill-formed terms `trap 0x20` to `trap 0x25`, which no Word decodes to, run the same routines (log
entry 19). -/
def Obligations.TrapDispatchesOnItsCode : Prop :=
  (∀ w : Word,
    (decode w = .getc ↔ w &&& 0xF0FF = 0xF020) ∧ (decode w = .out ↔ w &&& 0xF0FF = 0xF021) ∧
    (decode w = .puts ↔ w &&& 0xF0FF = 0xF022) ∧ (decode w = .inEcho ↔ w &&& 0xF0FF = 0xF023) ∧
    (decode w = .putsp ↔ w &&& 0xF0FF = 0xF024) ∧ (decode w = .halt ↔ w &&& 0xF0FF = 0xF025) ∧
    ∀ code : Byte, decode w = .trap code ↔
      w &&& 0xF000 = 0xF000 ∧ w.toNat % 256 = code.toNat ∧ (code.toNat < 0x20 ∨ 0x25 < code.toNat)) ∧
  (∀ s : State, exec (.trap 0x20) s = exec .getc s ∧ exec (.trap 0x21) s = exec .out s ∧
    exec (.trap 0x22) s = exec .puts s ∧ exec (.trap 0x23) s = exec .inEcho s ∧
    exec (.trap 0x24) s = exec .putsp s ∧ exec (.trap 0x25) s = exec .halt s)

/-- The two reserved opcodes (44_reserved.md R160, R161; which two they are is decision D1, the final pc D19) raise
IllegalOpcode with their value, and change nothing else. -/
def Obligations.ReservedOpcodesRaise : Prop :=
  ∀ s : State,
    exec .reserved8 s = .next { s with diag := s.diag ++ [.raised (.illegalOpcode 8)], run := .halted } ∧
    exec .reserved13 s = .next { s with diag := s.diag ++ [.raised (.illegalOpcode 13)], run := .halted }

/-! ## The step -/

/-- A step runs the decoded instruction (60_exceptions.md R171): between two steps of a running machine, with the interrupt not
recognised, it is `exec` of the instruction decoded from the Word that the polling read of `pc` gives, in the state with that
poll done and `pc` incremented modulo 2^16. The host's turn before the step: log entry 8. -/
def Obligations.StepRunsTheDecodedInstruction : Prop :=
  ∀ s : State, s.run = .running → s.phase = .fetch → (hostTurn s).intr = false →
    ∃ u, step s = exec (decode (memPeek s.pc (poll params (hostTurn s)))) u ∧
      u.pc.toNat = (s.pc.toNat + 1) % 65536 ∧ { u with pc := s.pc } = poll params (hostTurn s)

/-- Halted is terminal (R173, decision D23; that `step` still answers is log entry 13): nothing changes. -/
def Obligations.HaltedTakesNoStep : Prop :=
  ∀ s : State, s.run = .halted → step s = .next s

/-- The external interrupt before a step (R180 point 1, R181; decisions D14, D22): the instruction is not executed, no poll
runs, no event is emitted, the machine is halted and stays so. -/
def Obligations.InterruptIsExaminedBeforeTheStep : Prop :=
  ∀ s : State, s.run = .running → s.phase = .fetch → (hostTurn s).intr = true →
    ∃ t, step s = .next t ∧ InterruptedFrom s t ∧ t.out = s.out ∧ t.inq = (hostTurn s).inq ∧ step t = .next t

/-- No step faults and none is refused: every Word decodes, every address is valid, no instruction raises anything but the two
exceptions, which are next states (R178; 30_encoding.md R91; 20_memory.md R51). Choices this rests on: a string scan wraps at
0xFFFF and does not fault (STRING_WRAP, decision D9, log entries 2 and 23); the step of a halted machine answers (log entry 13);
so does that of a machine that waits for input or is inside a string scan (log entries 11 and 12). -/
def Obligations.EveryStepAnswers : Prop :=
  ∀ s : State, StepsSafely s

/-- The invariant (memory canonical, a halted machine inside no instruction) is kept by every step from every state (log
entries 1 and 11). -/
def Obligations.StepKeepsTheInvariant : Prop :=
  ∀ s t : State, s.Inv → step s = .next t → t.Inv

/-- The invariant holds at reset (log entries 1 and 11). -/
def Obligations.ResetMeetsTheInvariant : Prop :=
  State.reset.Inv

/-- What reset leaves (10_state.md R38; 90_conflicts.md C3; `intr` is decision D14): the values the spec gives. -/
def Obligations.ResetState : Prop :=
  (∀ r, State.reset.reg r = 0x0000) ∧ State.reset.pc = 0x3000 ∧ State.reset.cond = .zero ∧
  State.reset.run = .running ∧ (∀ a, memPeek a State.reset = 0x0000) ∧ State.reset.out = [] ∧
  State.reset.diag = [] ∧ State.reset.intr = false

/-! ## Rules over all instructions -/

/-- The writes of R22's table: no instruction changes a register it does not list (no interrupt: R180). -/
def Obligations.OnlyListedRegistersAreWritten : Prop :=
  ∀ (i : Instr) (s t : State), i.wellFormed = true → Uninterrupted s → exec i s = .next t →
    SameRegs (writtenRegs i) s t

/-- The reads of R22's table: the value of a register that an instruction does not list has no effect but on that register
itself. -/
def Obligations.OnlyListedRegistersAreRead : Prop :=
  ∀ (i : Instr) (s t : State) (r : Reg) (v : Word), i.wellFormed = true → r ∉ readRegs i → exec i s = .next t →
    ∃ t', exec i (s.setReg r v) = .next t' ∧ { t' with regs := t.regs } = t ∧ ∀ q, q ≠ r → t'.reg q = t.reg q

/-- R28: the flag-triggering writes, and that no other instruction changes COND. An instruction with such a write leaves the
flag of the value in its register, unless it is GETC or IN and still waits. -/
def Obligations.OnlyFlagWritesChangeCond : Prop :=
  ∀ (i : Instr) (s t : State), i.wellFormed = true → Uninterrupted s → s.phase = .fetch → exec i s = .next t →
    match flagWrite i with
    | none => t.cond = s.cond
    | some dr => t.cond = flagOf (t.reg dr) ∨ (t.cond = s.cond ∧ (t.phase = .getc ∨ t.phase = .inEcho))

/-- R28: "The only reader of COND is BR." For any other instruction another value of COND changes nothing but COND. -/
def Obligations.OnlyBranchReadsCond : Prop :=
  ∀ (i : Instr) (s t : State) (c : Cond), i.row ≠ .br → exec i s = .next t →
    ∃ t', exec i { s with cond := c } = .next t' ∧ { t' with cond := t.cond } = t

/-- R24 (and R23): how each instruction leaves `pc`, over a whole step with no interrupt: incremented once modulo 2^16 by the
fetch, then written again by a taken BR, JMP, JSR and JSRR only. -/
def Obligations.PcAfterEveryInstruction : Prop :=
  ∀ s t : State, s.run = .running → s.phase = .fetch → Uninterrupted s → step s = .next t →
    (fetchState params (hostTurn s)).pc.toNat = (s.pc.toNat + 1) % 65536 ∧
    t.pc = pcAfter (decode (fetchWord params (hostTurn s))) (fetchState params (hostTurn s))

/-- Which cells an instruction can change: the cell it stores to, and the two device cells when it reads memory through the
poll (20_memory.md R54, R55, R56). No interrupt: R180. -/
def Obligations.OnlyStoresAndPollsChangeMemory : Prop :=
  ∀ (i : Instr) (s t : State), s.mem.wf = true → Uninterrupted s → exec i s = .next t →
    SameCells (storedCells i s ++ if pollCount i = 1 then [] else [kbsrAddr, kbdrAddr]) s t

/-- The number of polls of R54, seen by the characters they take: with a quiet host, a step of any instruction but GETC and IN
takes from the queue one character per poll, as far as there are any. -/
def Obligations.StepPollsAsOftenAsItReads : Prop :=
  ∀ s t : State, s.run = .running → s.phase = .fetch → QuietHost s →
    decode (fetchWord params s) ≠ .getc → decode (fetchWord params s) ≠ .inEcho → step s = .next t →
    t.inq = s.inq.drop (pollCount (decode (fetchWord params s)))

/-- The halting conditions (60_exceptions.md R174, decision D11): if a step halts a running machine, it was the interrupt, with
no event, or HALT, a reserved opcode or an unrecognised trap code, each with its own event. -/
def Obligations.HaltingConditionsAreExhaustive : Prop :=
  ∀ s t : State, s.run = .running → step s = .next t → t.run = .halted →
    InterruptedFrom s t ∨
    (s.phase = .fetch ∧
      ((decode (fetchWord params (hostTurn s)) = .halt ∧ t.diag = s.diag ++ [.haltNotice]) ∨
       (decode (fetchWord params (hostTurn s)) = .reserved8 ∧ t.diag = s.diag ++ [.raised (.illegalOpcode 8)]) ∨
       (decode (fetchWord params (hostTurn s)) = .reserved13 ∧ t.diag = s.diag ++ [.raised (.illegalOpcode 13)]) ∨
       (∃ code, (code.toNat < 0x20 ∨ 0x25 < code.toNat) ∧ decode (fetchWord params (hostTurn s)) = .trap code ∧
         t.diag = s.diag ++ [.raised (.unrecognizedTrapCode code)])))

/-- The two streams only grow, `diag` by at most one event a step (10_state.md R34, R35). -/
def Obligations.StreamsOnlyGrow : Prop :=
  ∀ s t : State, step s = .next t → ∃ o d, t.out = s.out ++ o ∧ t.diag = s.diag ++ d ∧ d.length ≤ 1

/-- The machine never reads its streams (R34, R35): from a state with any other past on them the step does the same. -/
def Obligations.StreamsAreNeverRead : Prop :=
  ∀ (s t : State) (o : List Byte) (d : List Diag), step s = .next t →
    step { s with out := o ++ s.out, diag := d ++ s.diag } = .next { t with out := o ++ t.out, diag := d ++ t.diag }

/-- The machine never clears the interrupt request (R36), and never makes one: where none is pending and none is to come by a
turn of the host (log entry 8), it is so after the step too. -/
def Obligations.InterruptRequestIsTheHosts : Prop :=
  ∀ s t : State, step s = .next t → (s.intr = true → t.intr = true) ∧ (Uninterrupted s → Uninterrupted t)

/-- A store is seen by the very next fetch (20_memory.md R64), stated of `ST SR, #0`, which stores to the address of the next
instruction: the next step runs the Word stored. At the data cell so while no input is pending (R52, R56). At the status cell
the next fetch sees the word its own poll has just written (R52, R53, R56): 0x0000 with no input pending, and with input the
word 0x8000, which is KBSR_SET_MODE = Overwrite (decision D5, log entry 2). -/
def Obligations.StoreIsSeenByTheNextFetch : Prop :=
  ∀ (s : State) (sr : Reg), s.run = .running → s.phase = .fetch → Uninterrupted s → s.mem.wf = true →
    decode (fetchWord params (hostTurn s)) = .st sr 0 →
    ∃ t, step s = .next t ∧ t.pc = s.pc + 1 ∧
      (s.pc + 1 ≠ kbsrAddr → s.pc + 1 ≠ kbdrAddr →
        step t = exec (decode (s.reg sr)) (fetchState params (hostTurn t))) ∧
      (s.pc + 1 = kbdrAddr → (hostTurn (hostTurn t)).inq = [] →
        step t = exec (decode (s.reg sr)) (fetchState params (hostTurn t))) ∧
      (s.pc + 1 = kbsrAddr →
        fetchWord params (hostTurn t) = if (hostTurn (hostTurn t)).inq = [] then 0x0000 else 0x8000)

/-- GETC skips the character that was pending at its own fetch (70_reset_and_hazards.md R213): it goes to 0xFE02 and the next
one to R0; with no other the machine waits. -/
def Obligations.GetcSkipsTheCharacterItsFetchTook : Prop :=
  ∀ (s : State) (c : Byte), s.run = .running → s.phase = .fetch → QuietHost s → s.mem.wf = true →
    decode (fetchWord params s) = .getc →
    (∀ c' rest, s.inq = c :: c' :: rest →
      ∃ t, step s = .next t ∧ (memPeek kbdrAddr t).toNat = c.toNat ∧ memPeek kbsrAddr t = 0x8000 ∧
        (t.reg .r0).toNat = c'.toNat ∧ t.inq = rest ∧ t.phase = .fetch ∧ t.pc = s.pc + 1) ∧
    (s.inq = [c] →
      ∃ t, step s = .next t ∧ (memPeek kbdrAddr t).toNat = c.toNat ∧ memPeek kbsrAddr t = 0x8000 ∧
        t.phase = .getc ∧ t.inq = [] ∧ SameRegs [] s t ∧ t.cond = s.cond)

/-! ## The image load -/

/-- The load (70_reset_and_hazards.md R202, R203; whole pairs only, decision D15): each pair of body bytes, big-endian, in its
cell from the origin on; every other cell and all other state unchanged. -/
def Obligations.LoadPlacesTheImage : Prop :=
  ∀ (s : State) (b0 b1 : Byte) (body : List Byte), s.mem.wf = true → (b0 :: b1 :: body).length ≤ 65535 →
    b0.toNat * 256 + b1.toNat + body.length / 2 ≤ 65536 →
    ∃ t, load (some (b0 :: b1 :: body)) s = .ok t ∧
      (∀ (i : Nat) (hi lo : Byte), body[2 * i]? = some hi → body[2 * i + 1]? = some lo →
        (memPeek (BitVec.ofNat 16 (b0.toNat * 256 + b1.toNat + i)) t).toNat = hi.toNat * 256 + lo.toNat) ∧
      (∀ a : Word, a.toNat < b0.toNat * 256 + b1.toNat ∨ b0.toNat * 256 + b1.toNat + body.length / 2 ≤ a.toNat →
        memPeek a t = memPeek a s) ∧
      t.mem.wf = true ∧ { t with mem := s.mem } = s

/-- The size check (R204): an absent, an empty and an over-long image are ImageInvalid, and an accepted image carries at most
32766 words. -/
def Obligations.LoadChecksTheSize : Prop :=
  (∀ s, load none s = .error .imageInvalid) ∧ (∀ s, load (some []) s = .error .imageInvalid) ∧
  (∀ (bytes : List Byte) (s : State), 65535 < bytes.length → load (some bytes) s = .error .imageInvalid) ∧
  (∀ (bytes : List Byte) (s t : State), load (some bytes) s = .ok t → (bytes.length - 2) / 2 ≤ 32766)

/-- An image of one byte is ImageInvalid and one that would pass address 0xFFFF is ImageOverflowsAddressSpace (R203, R205,
decision D15); on an error there is no state, so no step is ever taken. -/
def Obligations.LoadRejectsBadImages : Prop :=
  (∀ (b : Byte) (s : State), load (some [b]) s = .error .imageInvalid) ∧
  (∀ (s : State) (b0 b1 : Byte) (body : List Byte), (b0 :: b1 :: body).length ≤ 65535 →
    65536 < b0.toNat * 256 + b1.toNat + body.length / 2 →
    load (some (b0 :: b1 :: body)) s = .error .imageOverflowsAddressSpace)
end

