-- ==== Sys2Proof/Laws/State.lean ====
section
/-! SUPPORT. One lemma per field per update of the state, so that no later proof unfolds a record update. -/

namespace Sys2Proof.Machine

/-! ### setReg (10_state.md R21) -/

theorem State.reg_setReg (s : State) (d r : Reg) (v : Word) :
    (s.setReg d v).reg r = if r = d then v else s.reg r := by
  cases d <;> cases r <;> rfl

@[simp] theorem State.reg_setReg_self (s : State) (d : Reg) (v : Word) : (s.setReg d v).reg d = v := by
  simp [State.reg_setReg]

theorem State.reg_setReg_ne (s : State) {d r : Reg} (v : Word) (h : r ≠ d) : (s.setReg d v).reg r = s.reg r := by
  simp [State.reg_setReg, h]

@[simp] theorem State.setReg_pc (s : State) (d : Reg) (v : Word) : (s.setReg d v).pc = s.pc := by cases d <;> rfl
@[simp] theorem State.setReg_cond (s : State) (d : Reg) (v : Word) : (s.setReg d v).cond = s.cond := by cases d <;> rfl
@[simp] theorem State.setReg_run (s : State) (d : Reg) (v : Word) : (s.setReg d v).run = s.run := by cases d <;> rfl
@[simp] theorem State.setReg_mem (s : State) (d : Reg) (v : Word) : (s.setReg d v).mem = s.mem := by cases d <;> rfl
@[simp] theorem State.setReg_inq (s : State) (d : Reg) (v : Word) : (s.setReg d v).inq = s.inq := by cases d <;> rfl
@[simp] theorem State.setReg_out (s : State) (d : Reg) (v : Word) : (s.setReg d v).out = s.out := by cases d <;> rfl
@[simp] theorem State.setReg_diag (s : State) (d : Reg) (v : Word) : (s.setReg d v).diag = s.diag := by cases d <;> rfl
@[simp] theorem State.setReg_intr (s : State) (d : Reg) (v : Word) : (s.setReg d v).intr = s.intr := by cases d <;> rfl
@[simp] theorem State.setReg_phase (s : State) (d : Reg) (v : Word) : (s.setReg d v).phase = s.phase := by cases d <;> rfl
@[simp] theorem State.setReg_host (s : State) (d : Reg) (v : Word) : (s.setReg d v).host = s.host := by cases d <;> rfl
@[simp] theorem State.setReg_draws (s : State) (d : Reg) (v : Word) : (s.setReg d v).draws = s.draws := by cases d <;> rfl

/-- Two states with the same registers read the same. -/
theorem State.reg_congr {s t : State} (h : s.regs = t.regs) (r : Reg) : s.reg r = t.reg r := by
  cases r <;> simp [State.reg, h]

/-! ### setPc -/

@[simp] theorem State.setPc_reg (s : State) (t : Word) (r : Reg) : (s.setPc t).reg r = s.reg r := by cases r <;> rfl
@[simp] theorem State.setPc_pc (s : State) (t : Word) : (s.setPc t).pc = t := rfl
@[simp] theorem State.setPc_cond (s : State) (t : Word) : (s.setPc t).cond = s.cond := rfl
@[simp] theorem State.setPc_run (s : State) (t : Word) : (s.setPc t).run = s.run := rfl
@[simp] theorem State.setPc_mem (s : State) (t : Word) : (s.setPc t).mem = s.mem := rfl
@[simp] theorem State.setPc_inq (s : State) (t : Word) : (s.setPc t).inq = s.inq := rfl
@[simp] theorem State.setPc_out (s : State) (t : Word) : (s.setPc t).out = s.out := rfl
@[simp] theorem State.setPc_diag (s : State) (t : Word) : (s.setPc t).diag = s.diag := rfl
@[simp] theorem State.setPc_intr (s : State) (t : Word) : (s.setPc t).intr = s.intr := rfl
@[simp] theorem State.setPc_phase (s : State) (t : Word) : (s.setPc t).phase = s.phase := rfl
@[simp] theorem State.setPc_host (s : State) (t : Word) : (s.setPc t).host = s.host := rfl
@[simp] theorem State.setPc_draws (s : State) (t : Word) : (s.setPc t).draws = s.draws := rfl

/-! ### setInq -/

@[simp] theorem State.setInq_reg (s : State) (x : List Byte) (r : Reg) : (s.setInq x).reg r = s.reg r := by cases r <;> rfl
@[simp] theorem State.setInq_regs (s : State) (x : List Byte) : (s.setInq x).regs = s.regs := rfl
@[simp] theorem State.setInq_pc (s : State) (x : List Byte) : (s.setInq x).pc = s.pc := rfl
@[simp] theorem State.setInq_cond (s : State) (x : List Byte) : (s.setInq x).cond = s.cond := rfl
@[simp] theorem State.setInq_run (s : State) (x : List Byte) : (s.setInq x).run = s.run := rfl
@[simp] theorem State.setInq_mem (s : State) (x : List Byte) : (s.setInq x).mem = s.mem := rfl
@[simp] theorem State.setInq_inq (s : State) (x : List Byte) : (s.setInq x).inq = x := rfl
@[simp] theorem State.setInq_out (s : State) (x : List Byte) : (s.setInq x).out = s.out := rfl
@[simp] theorem State.setInq_diag (s : State) (x : List Byte) : (s.setInq x).diag = s.diag := rfl
@[simp] theorem State.setInq_intr (s : State) (x : List Byte) : (s.setInq x).intr = s.intr := rfl
@[simp] theorem State.setInq_phase (s : State) (x : List Byte) : (s.setInq x).phase = s.phase := rfl
@[simp] theorem State.setInq_host (s : State) (x : List Byte) : (s.setInq x).host = s.host := rfl
@[simp] theorem State.setInq_draws (s : State) (x : List Byte) : (s.setInq x).draws = s.draws := rfl

/-! ### setPhase -/

@[simp] theorem State.setPhase_reg (s : State) (x : Phase) (r : Reg) : (s.setPhase x).reg r = s.reg r := by cases r <;> rfl
@[simp] theorem State.setPhase_regs (s : State) (x : Phase) : (s.setPhase x).regs = s.regs := rfl
@[simp] theorem State.setPhase_pc (s : State) (x : Phase) : (s.setPhase x).pc = s.pc := rfl
@[simp] theorem State.setPhase_cond (s : State) (x : Phase) : (s.setPhase x).cond = s.cond := rfl
@[simp] theorem State.setPhase_run (s : State) (x : Phase) : (s.setPhase x).run = s.run := rfl
@[simp] theorem State.setPhase_mem (s : State) (x : Phase) : (s.setPhase x).mem = s.mem := rfl
@[simp] theorem State.setPhase_inq (s : State) (x : Phase) : (s.setPhase x).inq = s.inq := rfl
@[simp] theorem State.setPhase_out (s : State) (x : Phase) : (s.setPhase x).out = s.out := rfl
@[simp] theorem State.setPhase_diag (s : State) (x : Phase) : (s.setPhase x).diag = s.diag := rfl
@[simp] theorem State.setPhase_intr (s : State) (x : Phase) : (s.setPhase x).intr = s.intr := rfl
@[simp] theorem State.setPhase_phase (s : State) (x : Phase) : (s.setPhase x).phase = x := rfl
@[simp] theorem State.setPhase_host (s : State) (x : Phase) : (s.setPhase x).host = s.host := rfl
@[simp] theorem State.setPhase_draws (s : State) (x : Phase) : (s.setPhase x).draws = s.draws := rfl

/-! ### setcc (R27) -/

@[simp] theorem setcc_reg (v : Word) (s : State) (r : Reg) : (setcc v s).reg r = s.reg r := by cases r <;> rfl
@[simp] theorem setcc_pc (v : Word) (s : State) : (setcc v s).pc = s.pc := rfl
@[simp] theorem setcc_cond (v : Word) (s : State) : (setcc v s).cond = flagOf v := rfl
@[simp] theorem setcc_run (v : Word) (s : State) : (setcc v s).run = s.run := rfl
@[simp] theorem setcc_mem (v : Word) (s : State) : (setcc v s).mem = s.mem := rfl
@[simp] theorem setcc_inq (v : Word) (s : State) : (setcc v s).inq = s.inq := rfl
@[simp] theorem setcc_out (v : Word) (s : State) : (setcc v s).out = s.out := rfl
@[simp] theorem setcc_diag (v : Word) (s : State) : (setcc v s).diag = s.diag := rfl
@[simp] theorem setcc_intr (v : Word) (s : State) : (setcc v s).intr = s.intr := rfl
@[simp] theorem setcc_phase (v : Word) (s : State) : (setcc v s).phase = s.phase := rfl
@[simp] theorem setcc_host (v : Word) (s : State) : (setcc v s).host = s.host := rfl
@[simp] theorem setcc_draws (v : Word) (s : State) : (setcc v s).draws = s.draws := rfl

/-! ### writeResult (R28) -/

theorem writeResult_reg (dr r : Reg) (v : Word) (s : State) :
    (writeResult dr v s).reg r = if r = dr then v else s.reg r := by
  simp [writeResult, State.reg_setReg]

@[simp] theorem writeResult_pc (dr : Reg) (v : Word) (s : State) : (writeResult dr v s).pc = s.pc := by simp [writeResult]
@[simp] theorem writeResult_cond (dr : Reg) (v : Word) (s : State) : (writeResult dr v s).cond = flagOf v := rfl
@[simp] theorem writeResult_run (dr : Reg) (v : Word) (s : State) : (writeResult dr v s).run = s.run := by simp [writeResult]
@[simp] theorem writeResult_mem (dr : Reg) (v : Word) (s : State) : (writeResult dr v s).mem = s.mem := by simp [writeResult]
@[simp] theorem writeResult_inq (dr : Reg) (v : Word) (s : State) : (writeResult dr v s).inq = s.inq := by simp [writeResult]
@[simp] theorem writeResult_out (dr : Reg) (v : Word) (s : State) : (writeResult dr v s).out = s.out := by simp [writeResult]
@[simp] theorem writeResult_diag (dr : Reg) (v : Word) (s : State) : (writeResult dr v s).diag = s.diag := by simp [writeResult]
@[simp] theorem writeResult_intr (dr : Reg) (v : Word) (s : State) : (writeResult dr v s).intr = s.intr := by simp [writeResult]
@[simp] theorem writeResult_phase (dr : Reg) (v : Word) (s : State) : (writeResult dr v s).phase = s.phase := by simp [writeResult]
@[simp] theorem writeResult_host (dr : Reg) (v : Word) (s : State) : (writeResult dr v s).host = s.host := by simp [writeResult]
@[simp] theorem writeResult_draws (dr : Reg) (v : Word) (s : State) : (writeResult dr v s).draws = s.draws := by simp [writeResult]

/-! ### memWrite (20_memory.md R56) -/

@[simp] theorem memWrite_reg (a v : Word) (s : State) (r : Reg) : (memWrite a v s).reg r = s.reg r := by cases r <;> rfl
@[simp] theorem memWrite_regs (a v : Word) (s : State) : (memWrite a v s).regs = s.regs := rfl
@[simp] theorem memWrite_pc (a v : Word) (s : State) : (memWrite a v s).pc = s.pc := rfl
@[simp] theorem memWrite_cond (a v : Word) (s : State) : (memWrite a v s).cond = s.cond := rfl
@[simp] theorem memWrite_run (a v : Word) (s : State) : (memWrite a v s).run = s.run := rfl
@[simp] theorem memWrite_mem (a v : Word) (s : State) : (memWrite a v s).mem = Memory.write a.toNat v s.mem := rfl
@[simp] theorem memWrite_inq (a v : Word) (s : State) : (memWrite a v s).inq = s.inq := rfl
@[simp] theorem memWrite_out (a v : Word) (s : State) : (memWrite a v s).out = s.out := rfl
@[simp] theorem memWrite_diag (a v : Word) (s : State) : (memWrite a v s).diag = s.diag := rfl
@[simp] theorem memWrite_intr (a v : Word) (s : State) : (memWrite a v s).intr = s.intr := rfl
@[simp] theorem memWrite_phase (a v : Word) (s : State) : (memWrite a v s).phase = s.phase := rfl
@[simp] theorem memWrite_host (a v : Word) (s : State) : (memWrite a v s).host = s.host := rfl
@[simp] theorem memWrite_draws (a v : Word) (s : State) : (memWrite a v s).draws = s.draws := rfl

/-! ### writeChar (00_scope.md R12) -/

@[simp] theorem writeChar_reg (b : Byte) (s : State) (r : Reg) : (writeChar b s).reg r = s.reg r := by cases r <;> rfl
@[simp] theorem writeChar_regs (b : Byte) (s : State) : (writeChar b s).regs = s.regs := rfl
@[simp] theorem writeChar_pc (b : Byte) (s : State) : (writeChar b s).pc = s.pc := rfl
@[simp] theorem writeChar_cond (b : Byte) (s : State) : (writeChar b s).cond = s.cond := rfl
@[simp] theorem writeChar_run (b : Byte) (s : State) : (writeChar b s).run = s.run := rfl
@[simp] theorem writeChar_mem (b : Byte) (s : State) : (writeChar b s).mem = s.mem := rfl
@[simp] theorem writeChar_inq (b : Byte) (s : State) : (writeChar b s).inq = s.inq := rfl
@[simp] theorem writeChar_out (b : Byte) (s : State) : (writeChar b s).out = s.out ++ [b] := rfl
@[simp] theorem writeChar_diag (b : Byte) (s : State) : (writeChar b s).diag = s.diag := rfl
@[simp] theorem writeChar_intr (b : Byte) (s : State) : (writeChar b s).intr = s.intr := rfl
@[simp] theorem writeChar_phase (b : Byte) (s : State) : (writeChar b s).phase = s.phase := rfl
@[simp] theorem writeChar_host (b : Byte) (s : State) : (writeChar b s).host = s.host := rfl
@[simp] theorem writeChar_draws (b : Byte) (s : State) : (writeChar b s).draws = s.draws := rfl

/-! ### raise and haltTrap (00_scope.md R11, 43_trap.md R147) -/

theorem raise_eq (e : Exc) (s : State) :
    raise e s = { s with diag := s.diag ++ [.raised e], run := .halted } := rfl

theorem haltTrap_eq (s : State) :
    haltTrap s = { s with diag := s.diag ++ [.haltNotice], run := .halted } := rfl

@[simp] theorem raise_run (e : Exc) (s : State) : (raise e s).run = .halted := rfl
@[simp] theorem raise_diag (e : Exc) (s : State) : (raise e s).diag = s.diag ++ [.raised e] := rfl
@[simp] theorem raise_reg (e : Exc) (s : State) (r : Reg) : (raise e s).reg r = s.reg r := by cases r <;> rfl
@[simp] theorem haltTrap_run (s : State) : (haltTrap s).run = .halted := rfl
@[simp] theorem haltTrap_diag (s : State) : (haltTrap s).diag = s.diag ++ [.haltNotice] := rfl
@[simp] theorem haltTrap_reg (s : State) (r : Reg) : (haltTrap s).reg r = s.reg r := by cases r <;> rfl

/-! ### hostTurn (10_state.md R33, R36): only `inq`, `intr` and `host` -/

@[simp] theorem hostTurn_regs (s : State) : (hostTurn s).regs = s.regs := by unfold hostTurn; split <;> rfl
@[simp] theorem hostTurn_reg (s : State) (r : Reg) : (hostTurn s).reg r = s.reg r :=
  State.reg_congr (hostTurn_regs s) r
@[simp] theorem hostTurn_pc (s : State) : (hostTurn s).pc = s.pc := by unfold hostTurn; split <;> rfl
@[simp] theorem hostTurn_cond (s : State) : (hostTurn s).cond = s.cond := by unfold hostTurn; split <;> rfl
@[simp] theorem hostTurn_run (s : State) : (hostTurn s).run = s.run := by unfold hostTurn; split <;> rfl
@[simp] theorem hostTurn_mem (s : State) : (hostTurn s).mem = s.mem := by unfold hostTurn; split <;> rfl
@[simp] theorem hostTurn_out (s : State) : (hostTurn s).out = s.out := by unfold hostTurn; split <;> rfl
@[simp] theorem hostTurn_diag (s : State) : (hostTurn s).diag = s.diag := by unfold hostTurn; split <;> rfl
@[simp] theorem hostTurn_phase (s : State) : (hostTurn s).phase = s.phase := by unfold hostTurn; split <;> rfl
@[simp] theorem hostTurn_draws (s : State) : (hostTurn s).draws = s.draws := by unfold hostTurn; split <;> rfl

/-- With no turn to come nothing happens. -/
theorem hostTurn_idle {s : State} (h : s.host = []) : hostTurn s = s := by simp [hostTurn, h]

theorem hostTurn_host (s : State) : (hostTurn s).host = s.host.drop 1 := by
  unfold hostTurn; split <;> simp_all

theorem hostTurn_inq (s : State) : (hostTurn s).inq = s.inq ++ (s.host.take 1).flatMap HostTurn.keys := by
  unfold hostTurn; split <;> simp_all

/-- The host's turn never clears the interrupt request (R36). -/
theorem hostTurn_intr_mono {s : State} (h : s.intr = true) : (hostTurn s).intr = true := by
  unfold hostTurn; split <;> simp_all

/-! ### interruptHalt (60_exceptions.md R180): what stays -/

@[simp] theorem interruptHalt_run (s : State) : (interruptHalt s).run = .halted := rfl
@[simp] theorem interruptHalt_out (s : State) : (interruptHalt s).out = s.out := rfl
@[simp] theorem interruptHalt_diag (s : State) : (interruptHalt s).diag = s.diag := rfl
@[simp] theorem interruptHalt_inq (s : State) : (interruptHalt s).inq = s.inq := rfl
@[simp] theorem interruptHalt_intr (s : State) : (interruptHalt s).intr = s.intr := rfl
@[simp] theorem interruptHalt_host (s : State) : (interruptHalt s).host = s.host := rfl
@[simp] theorem interruptHalt_phase (s : State) : (interruptHalt s).phase = .fetch := rfl

end Sys2Proof.Machine
end

