-- ==== Sys2Proof/Laws/Memory.lean ====
section
/-! SUPPORT. Memory: a read after a write, and that every memory operation keeps the canonical form. -/

namespace Sys2Proof.Machine

theorem Memory.wfFrom_weaken {lo lo' : Nat} (h : lo' ≤ lo) :
    ∀ m : Memory, Memory.wfFrom lo m = true → Memory.wfFrom lo' m = true
  | [], _ => rfl
  | (k, v) :: rest, hm => by
    simp only [Memory.wfFrom, Bool.and_eq_true, decide_eq_true_eq] at hm ⊢
    obtain ⟨⟨⟨h1, h2⟩, h3⟩, h4⟩ := hm
    exact ⟨⟨⟨by omega, h2⟩, h3⟩, h4⟩

/-- A cell below every listed key reads as an unlisted one. -/
theorem Memory.read_below {lo k : Nat} (h : k < lo) :
    ∀ m : Memory, Memory.wfFrom lo m = true → Memory.read k m = 0#16
  | [], _ => rfl
  | (j, v) :: rest, hm => by
    simp only [Memory.wfFrom, Bool.and_eq_true, decide_eq_true_eq] at hm
    obtain ⟨⟨⟨h1, h2⟩, h3⟩, h4⟩ := hm
    have hj : ¬ j = k := by omega
    simp only [Memory.read, hj, if_false]
    exact Memory.read_below (by omega) rest h4

/-- Read after write, on a canonical memory. -/
theorem Memory.read_write {lo : Nat} (j k : Nat) (v : Word) :
    ∀ m : Memory, Memory.wfFrom lo m = true →
      Memory.read j (Memory.write k v m) = if j = k then v else Memory.read j m
  | [], _ => by
    by_cases hj : j = k
    · by_cases hv : v = 0#16 <;> simp [Memory.write, Memory.read, hv, hj]
    · have hkj : ¬ k = j := fun e => hj e.symm
      by_cases hv : v = 0#16 <;> simp [Memory.write, Memory.read, hv, hj, hkj]
  | (i, w) :: rest, hm => by
    simp only [Memory.wfFrom, Bool.and_eq_true, decide_eq_true_eq] at hm
    obtain ⟨⟨⟨h1, h2⟩, h3⟩, h4⟩ := hm
    have ih := Memory.read_write j k v rest h4
    have hbelow : k ≤ i → Memory.read k rest = 0#16 := fun h => Memory.read_below (by omega) rest h4
    by_cases hjk : j = k
    · subst hjk
      rcases Nat.lt_trichotomy j i with h | h | h
      · have := hbelow h.le
        by_cases hv : v = 0#16 <;> simp [Memory.write, Memory.read, h, hv, this, h.ne']
      · subst h
        have := hbelow le_rfl
        by_cases hv : v = 0#16 <;> simp [Memory.write, Memory.read, hv, this]
      · simp [Memory.write, Memory.read, h.not_gt, h.ne', h.ne, ih]
    · have hkj : ¬ k = j := fun e => hjk e.symm
      rw [if_neg hjk] at ih ⊢
      rcases Nat.lt_trichotomy k i with h | h | h
      · by_cases hv : v = 0#16 <;> simp [Memory.write, Memory.read, h, hv, hkj]
      · subst h
        by_cases hv : v = 0#16 <;> simp [Memory.write, Memory.read, hv, hkj]
      · simp [Memory.write, Memory.read, h.not_gt, h.ne', ih]

/-- A write keeps the canonical form. -/
theorem Memory.wfFrom_write {lo k : Nat} (v : Word) (hlo : lo ≤ k) (hk : k < Config.memWords) :
    ∀ m : Memory, Memory.wfFrom lo m = true → Memory.wfFrom lo (Memory.write k v m) = true
  | [], _ => by
    by_cases hv : v = 0#16 <;> simp [Memory.write, Memory.wfFrom, hv, hlo, hk]
  | (i, w) :: rest, hm => by
    have hm' := hm
    simp only [Memory.wfFrom, Bool.and_eq_true, decide_eq_true_eq] at hm
    obtain ⟨⟨⟨h1, h2⟩, h3⟩, h4⟩ := hm
    rcases Nat.lt_trichotomy k i with h | h | h
    · have h5 : k + 1 ≤ i := h
      by_cases hv : v = 0#16
      · simpa [Memory.write, h, hv] using hm'
      · simpa [Memory.write, h, hv, Memory.wfFrom, hlo, hk, h2, h4, h5] using h3
    · subst h
      by_cases hv : v = 0#16
      · simpa [Memory.write, hv] using Memory.wfFrom_weaken (by omega) rest h4
      · simp [Memory.write, hv, Memory.wfFrom, hlo, hk, h4]
    · have ih := Memory.wfFrom_write (lo := i + 1) v (by omega) hk rest h4
      simpa [Memory.write, h.not_gt, h.ne', Memory.wfFrom, h1, h2, ih] using h3

theorem Memory.wf_write {k : Nat} {m : Memory} (v : Word) (hk : k < Config.memWords) (h : m.wf = true) :
    (Memory.write k v m).wf = true :=
  Memory.wfFrom_write v (Nat.zero_le k) hk m h

/-- Every address is below the number of cells (20_memory.md R51). -/
theorem address_lt (a : Word) : a.toNat < Config.memWords := a.isLt

theorem memWrite_wf {s : State} (a v : Word) (h : s.mem.wf = true) : (memWrite a v s).mem.wf = true :=
  Memory.wf_write v (address_lt a) h

theorem Memory.ofCells_wf : ∀ cs : List (Word × Word), (Memory.ofCells cs).wf = true
  | [] => rfl
  | (a, v) :: rest => Memory.wf_write v (address_lt a) (Memory.ofCells_wf rest)

theorem interruptHalt_wf (s : State) : (interruptHalt s).mem.wf = true := Memory.ofCells_wf _

/-- Read after write through the machine's addresses (20_memory.md R56, R61). -/
theorem memPeek_memWrite {s : State} (h : s.mem.wf = true) (a b v : Word) :
    memPeek b (memWrite a v s) = if b = a then v else memPeek b s := by
  have := Memory.read_write b.toNat a.toNat v s.mem h
  simpa [memPeek, memWrite, BitVec.toNat_inj] using this

/-- Two states with the same memory read the same. -/
theorem memPeek_congr {s t : State} (h : s.mem = t.mem) (a : Word) : memPeek a s = memPeek a t := by
  simp [memPeek, h]

@[simp] theorem memPeek_hostTurn (a : Word) (s : State) : memPeek a (hostTurn s) = memPeek a s := by simp [memPeek]
@[simp] theorem memPeek_writeChar (a : Word) (b : Byte) (s : State) : memPeek a (writeChar b s) = memPeek a s := rfl
@[simp] theorem memPeek_setReg (a : Word) (s : State) (r : Reg) (v : Word) : memPeek a (s.setReg r v) = memPeek a s := by
  simp [memPeek]
@[simp] theorem memPeek_setPc (a : Word) (s : State) (t : Word) : memPeek a (s.setPc t) = memPeek a s := rfl
@[simp] theorem memPeek_setInq (a : Word) (s : State) (q : List Byte) : memPeek a (s.setInq q) = memPeek a s := rfl
@[simp] theorem memPeek_setPhase (a : Word) (s : State) (ph : Phase) : memPeek a (s.setPhase ph) = memPeek a s := rfl
@[simp] theorem memPeek_setcc (a : Word) (s : State) (v : Word) : memPeek a (setcc v s) = memPeek a s := rfl
@[simp] theorem memPeek_writeResult (a : Word) (s : State) (r : Reg) (v : Word) :
    memPeek a (writeResult r v s) = memPeek a s := by simp [memPeek]

/-- Consecutive writes keep the canonical form when they stay inside memory. -/
theorem writeWords_wf : ∀ (ws : List Word) (k : Nat) (m : Memory), k + ws.length ≤ Config.memWords → m.wf = true →
    (writeWords k ws m).wf = true
  | [], _, _, _, h => h
  | w :: ws, k, m, hk, h => by
    simp only [List.length_cons] at hk
    exact writeWords_wf ws (k + 1) _ (by omega) (Memory.wf_write w (by omega) h)

end Sys2Proof.Machine
end

