-- ==== Sys2Proof/Laws/Ops.lean ====
section
/-! SUPPORT. What each shared operation can do, said once: the poll, ReadChar, a sequence of WriteChar calls, the string scan.
Provers cite these and do not unfold the operations. -/

namespace Sys2Proof.Machine

/-! ### The host's turn -/

/-- The host had some turns between `s` and `t`: their `intr` joined the request, the turns after them are still to come. -/
def TurnsTaken (s t : State) : Prop :=
  ∃ k, t.host = s.host.drop k ∧ t.intr = (s.intr || (s.host.take k).any HostTurn.intr)

theorem TurnsTaken.refl (s : State) : TurnsTaken s s := ⟨0, by simp⟩

theorem TurnsTaken.trans {s t u : State} (h : TurnsTaken s t) (h' : TurnsTaken t u) : TurnsTaken s u := by
  obtain ⟨j, h1, h2⟩ := h
  obtain ⟨k, h3, h4⟩ := h'
  exact ⟨j + k, by rw [h3, h1, List.drop_drop], by rw [h4, h2, h1, List.take_add, List.any_append, Bool.or_assoc]⟩

theorem turnsTaken_hostTurn (s : State) : TurnsTaken s (hostTurn s) := by
  refine ⟨1, hostTurn_host s, ?_⟩
  unfold hostTurn
  split <;> simp_all

/-- The machine never clears the request (10_state.md R36). -/
theorem TurnsTaken.intr {s t : State} (h : TurnsTaken s t) (hs : s.intr = true) : t.intr = true := by
  obtain ⟨k, _, h2⟩ := h
  rw [h2, hs]
  rfl

theorem TurnsTaken.uninterrupted {s t : State} (h : TurnsTaken s t) (hs : Uninterrupted s) : Uninterrupted t := by
  obtain ⟨k, h1, h2⟩ := h
  refine ⟨?_, fun u hu => hs.2 u (List.mem_of_mem_drop (h1 ▸ hu))⟩
  rw [h2, hs.1, Bool.false_or, List.any_eq_false]
  exact fun u hu => by simp [hs.2 u (List.mem_of_mem_take hu)]

theorem hostTurn_uninterrupted {s : State} (h : Uninterrupted s) : Uninterrupted (hostTurn s) :=
  (turnsTaken_hostTurn s).uninterrupted h

/-- `t` differs from `s` only in the terminal (the output, the pending input) and by turns the host has had. -/
def Moved (s t : State) : Prop :=
  t = { s with out := t.out, inq := t.inq, intr := t.intr, host := t.host } ∧ TurnsTaken s t

theorem Moved.refl (s : State) : Moved s s := ⟨rfl, TurnsTaken.refl s⟩

theorem Moved.trans {s t u : State} (h : Moved s t) (h' : Moved t u) : Moved s u := by
  refine ⟨?_, h.2.trans h'.2⟩
  rw [h'.1, h.1]

theorem Moved.mem {s t : State} (h : Moved s t) : t.mem = s.mem := by rw [h.1]
theorem Moved.regs {s t : State} (h : Moved s t) : t.regs = s.regs := by rw [h.1]
theorem Moved.reg {s t : State} (h : Moved s t) (r : Reg) : t.reg r = s.reg r := State.reg_congr h.regs r
theorem Moved.pc {s t : State} (h : Moved s t) : t.pc = s.pc := by rw [h.1]
theorem Moved.cond {s t : State} (h : Moved s t) : t.cond = s.cond := by rw [h.1]
theorem Moved.run {s t : State} (h : Moved s t) : t.run = s.run := by rw [h.1]
theorem Moved.diag {s t : State} (h : Moved s t) : t.diag = s.diag := by rw [h.1]
theorem Moved.phase {s t : State} (h : Moved s t) : t.phase = s.phase := by rw [h.1]
theorem Moved.draws {s t : State} (h : Moved s t) : t.draws = s.draws := by rw [h.1]
theorem Moved.memPeek {s t : State} (h : Moved s t) (a : Word) : memPeek a t = memPeek a s := memPeek_congr h.mem a

theorem moved_hostTurn (s : State) : Moved s (hostTurn s) :=
  ⟨by unfold hostTurn; split <;> rfl, turnsTaken_hostTurn s⟩

theorem moved_writeChar (b : Byte) (s : State) : Moved s (writeChar b s) := ⟨rfl, TurnsTaken.refl s⟩

/-- Where the interrupt was recognised, it was pending or came. -/
theorem Moved.not_uninterrupted {s t : State} (h : Moved s t) (ht : t.intr = true) : ¬ Uninterrupted s := fun hs => by
  simp [(h.2.uninterrupted hs).1] at ht

/-! ### HostAdvanced -/

theorem hostAdvanced_zero (s : State) : HostAdvanced 0 s s := by simp [HostAdvanced, arrivals]

theorem hostAdvanced_hostTurn (s : State) : HostAdvanced 1 s (hostTurn s) :=
  ⟨hostTurn_host s, hostTurn_inq s⟩

theorem HostAdvanced.trans {j k : Nat} {s t u : State} (h : HostAdvanced j s t) (h' : HostAdvanced k t u) :
    HostAdvanced (j + k) s u := by
  obtain ⟨h1, h2⟩ := h
  obtain ⟨h3, h4⟩ := h'
  refine ⟨by rw [h3, h1, List.drop_drop], ?_⟩
  rw [h4, h2, arrivals, arrivals, arrivals, h1, List.append_assoc, ← List.flatMap_append, List.take_add]

/-! ### The poll (20_memory.md R52) -/

theorem poll_idle {p : Params} {s : State} (h : (hostTurn s).inq = []) :
    poll p s = memWrite kbsrAddr 0#16 (hostTurn s) := by simp [poll, h]

theorem poll_input {p : Params} {s : State} {c : Byte} {rest : List Byte} (h : (hostTurn s).inq = c :: rest) :
    poll p s =
      (memWrite kbdrAddr (charWord c)
        (memWrite kbsrAddr (readyWord p (memPeek kbsrAddr (hostTurn s))) (hostTurn s))).setInq
        (if p.pollConsumes then rest else c :: rest) := by simp [poll, h]

@[simp] theorem poll_regs (p : Params) (s : State) : (poll p s).regs = s.regs := by unfold poll; split <;> simp
@[simp] theorem poll_reg (p : Params) (s : State) (r : Reg) : (poll p s).reg r = s.reg r :=
  State.reg_congr (poll_regs p s) r
@[simp] theorem poll_pc (p : Params) (s : State) : (poll p s).pc = s.pc := by unfold poll; split <;> simp
@[simp] theorem poll_cond (p : Params) (s : State) : (poll p s).cond = s.cond := by unfold poll; split <;> simp
@[simp] theorem poll_run (p : Params) (s : State) : (poll p s).run = s.run := by unfold poll; split <;> simp
@[simp] theorem poll_out (p : Params) (s : State) : (poll p s).out = s.out := by unfold poll; split <;> simp
@[simp] theorem poll_diag (p : Params) (s : State) : (poll p s).diag = s.diag := by unfold poll; split <;> simp
@[simp] theorem poll_phase (p : Params) (s : State) : (poll p s).phase = s.phase := by unfold poll; split <;> simp
@[simp] theorem poll_draws (p : Params) (s : State) : (poll p s).draws = s.draws := by unfold poll; split <;> simp
theorem poll_intr (p : Params) (s : State) : (poll p s).intr = (hostTurn s).intr := by unfold poll; split <;> simp
theorem poll_host (p : Params) (s : State) : (poll p s).host = (hostTurn s).host := by unfold poll; split <;> simp

/-- With POLL_CONSUMES the poll takes at most one character (R55). -/
theorem poll_inq (s : State) : (poll params s).inq = (hostTurn s).inq.tail := by
  unfold poll; split <;> simp_all [params]

theorem turnsTaken_poll (p : Params) (s : State) : TurnsTaken s (poll p s) := by
  obtain ⟨k, h1, h2⟩ := turnsTaken_hostTurn s
  exact ⟨k, by rw [poll_host, h1], by rw [poll_intr, h2]⟩

theorem poll_wf (p : Params) {s : State} (h : s.mem.wf = true) : (poll p s).mem.wf = true := by
  have h0 : (hostTurn s).mem.wf = true := by simpa using h
  unfold poll
  split
  · exact memWrite_wf _ _ h0
  · exact memWrite_wf _ _ (memWrite_wf _ _ h0)

theorem poll_uninterrupted {p : Params} {s : State} (h : Uninterrupted s) : Uninterrupted (poll p s) :=
  (turnsTaken_poll p s).uninterrupted h

/-- The poll touches the two device cells only (R52, R55). -/
theorem memPeek_poll (p : Params) {s : State} (h : s.mem.wf = true) (a : Word) :
    memPeek a (poll p s) =
      match (hostTurn s).inq with
      | [] => if a = kbsrAddr then 0#16 else memPeek a s
      | c :: _ =>
        if a = kbdrAddr then charWord c
        else if a = kbsrAddr then readyWord p (memPeek kbsrAddr s) else memPeek a s := by
  have h0 : (hostTurn s).mem.wf = true := by simpa using h
  cases hq : (hostTurn s).inq with
  | nil => rw [poll_idle hq, memPeek_memWrite h0, memPeek_hostTurn]
  | cons c rest =>
    have h1 := memWrite_wf kbsrAddr (readyWord p (memPeek kbsrAddr (hostTurn s))) h0
    rw [poll_input hq, memPeek_setInq, memPeek_memWrite h1, memPeek_memWrite h0, memPeek_hostTurn, memPeek_hostTurn]

/-! ### ReadChar (60_exceptions.md R186) -/

theorem readChar_got {s : State} {c : Byte} {rest : List Byte} (h : (hostTurn s).inq = c :: rest) :
    readChar s = .got c ((hostTurn s).setInq rest) := by simp [readChar, h]

theorem readChar_waiting {s : State} (h : (hostTurn s).inq = []) (h' : (hostTurn s).intr = false) :
    readChar s = .waiting (hostTurn s) := by simp [readChar, h, h']

theorem readChar_interrupted {s : State} (h : (hostTurn s).inq = []) (h' : (hostTurn s).intr = true) :
    readChar s = .interrupted (hostTurn s) := by simp [readChar, h, h']

/-- Everything ReadChar can do. -/
theorem readChar_cases (s : State) :
    (∃ c rest, (hostTurn s).inq = c :: rest ∧ readChar s = .got c ((hostTurn s).setInq rest)) ∨
    ((hostTurn s).inq = [] ∧ (hostTurn s).intr = false ∧ readChar s = .waiting (hostTurn s)) ∨
    ((hostTurn s).inq = [] ∧ (hostTurn s).intr = true ∧ readChar s = .interrupted (hostTurn s)) := by
  cases h : (hostTurn s).inq with
  | cons c rest => exact .inl ⟨c, rest, rfl, readChar_got h⟩
  | nil =>
    cases h' : (hostTurn s).intr with
    | false => exact .inr (.inl ⟨rfl, rfl, readChar_waiting h h'⟩)
    | true => exact .inr (.inr ⟨rfl, rfl, readChar_interrupted h h'⟩)

/-! ### WriteChar sequences (60_exceptions.md R180 point 3) -/

theorem writeNext_done {f : Bool} {b : Byte} {s t : State} (h : writeNext f b s = .done t) :
    Moved s t ∧ t.out = s.out ++ [b] := by
  unfold writeNext at h
  split_ifs at h
  · cases h; exact ⟨moved_writeChar b s, rfl⟩
  · cases h; exact ⟨(moved_hostTurn s).trans (moved_writeChar b _), by simp⟩

theorem writeNext_interrupted {f : Bool} {b : Byte} {s t : State} (h : writeNext f b s = .interrupted t) :
    f = false ∧ t = hostTurn s ∧ t.intr = true := by
  unfold writeNext at h
  split_ifs at h with h1 h2
  cases h
  exact ⟨by simpa using h1, rfl, h2⟩

/-- The turns of the host a `WriteChar` waits for: one, but none before the routine's first. -/
def turnsBefore (first : Bool) : Nat := if first then 0 else 1

theorem writeNext_uninterrupted (f : Bool) (b : Byte) {s : State} (h : Uninterrupted s) :
    ∃ t, writeNext f b s = .done t ∧ HostAdvanced (turnsBefore f) s t ∧ Uninterrupted t := by
  cases f with
  | true => exact ⟨writeChar b s, rfl, ⟨by simp [turnsBefore], by simp [turnsBefore, arrivals]⟩, h⟩
  | false =>
    have h1 := hostTurn_uninterrupted h
    refine ⟨writeChar b (hostTurn s), by simp [writeNext, h1.1], ?_, h1⟩
    exact ⟨by simpa [turnsBefore] using hostTurn_host s, by simpa [turnsBefore, arrivals] using hostTurn_inq s⟩

theorem printChars_nil (f : Bool) (s : State) : printChars f [] s = .done s := by cases f <;> rfl

/-- If all the bytes are written, they are what `out` gained, and only the terminal changed. -/
theorem printChars_done {f : Bool} {bs : List Byte} {s t : State} (h : printChars f bs s = .done t) :
    Moved s t ∧ t.out = s.out ++ bs := by
  induction bs generalizing f s with
  | nil =>
    rw [printChars_nil] at h
    cases h
    exact ⟨Moved.refl _, by simp⟩
  | cons b bs ih =>
    unfold printChars at h
    cases hu : writeNext f b s with
    | interrupted u => rw [hu] at h; cases h
    | done u =>
      rw [hu] at h
      obtain ⟨h1, h2⟩ := writeNext_done hu
      obtain ⟨h3, h4⟩ := ih h
      exact ⟨h1.trans h3, by rw [h4, h2]; simp⟩

/-- If the interrupt cut them short, `out` gained a proper prefix of them, not the empty one if they began the routine, and
only the terminal changed. -/
theorem printChars_interrupted {f : Bool} {bs : List Byte} {s t : State} (h : printChars f bs s = .interrupted t) :
    Moved s t ∧ t.intr = true ∧ ∃ m, m < bs.length ∧ (f = true → 0 < m) ∧ t.out = s.out ++ bs.take m := by
  induction bs generalizing f s with
  | nil => rw [printChars_nil] at h; cases h
  | cons b bs ih =>
    unfold printChars at h
    cases hu : writeNext f b s with
    | interrupted u =>
      rw [hu] at h
      cases h
      obtain ⟨hf, rfl, h3⟩ := writeNext_interrupted hu
      exact ⟨moved_hostTurn _, h3, 0, by simp, by simp [hf], by simp⟩
    | done u =>
      rw [hu] at h
      obtain ⟨h1, h2⟩ := writeNext_done hu
      obtain ⟨h3, h4, m, hm, _, h5⟩ := ih h
      exact ⟨h1.trans h3, h4, m + 1, by simpa using hm, by simp, by rw [h5, h2]; simp⟩

/-- The turns of the host a sequence of `n` WriteChar calls takes. -/
def turnsOf (first : Bool) (n : Nat) : Nat := if first then n - 1 else n

theorem printChars_uninterrupted : ∀ (f : Bool) (bs : List Byte) {s : State}, Uninterrupted s →
    ∃ t, printChars f bs s = .done t ∧ HostAdvanced (turnsOf f bs.length) s t ∧ Uninterrupted t
  | f, [], s, h => ⟨s, rfl, by cases f <;> exact hostAdvanced_zero s, h⟩
  | f, b :: bs, s, h => by
    obtain ⟨t, h1, h2, h3⟩ := writeNext_uninterrupted f b h
    obtain ⟨u, h4, h5, h6⟩ := printChars_uninterrupted false bs h3
    refine ⟨u, by simp [printChars, h1, h4], ?_, h6⟩
    have := h2.trans h5
    cases f <;> simpa [turnsBefore, turnsOf, Nat.add_comm] using this

/-! ### The string scan (43_trap.md R144, R146, R148), with the spec's parameters -/

@[simp] theorem scanValue_params (a : Word) (s : State) : scanValue params a s = memPeek a s := rfl
@[simp] theorem scanState_params (s : State) : scanState params s = s := rfl
@[simp] theorem scanNext_params (a : Word) : scanNext params a = some (a + 1) := by simp [scanNext, params]

theorem stringWord_zero (s : State) (a : Word) : stringWord s a 0 = memPeek a s := by simp [stringWord]

theorem stringWord_succ (s : State) (a : Word) (i : Nat) : stringWord s a (i + 1) = stringWord s (a + 1) i := by
  have : a + BitVec.ofNat 16 (i + 1) = a + 1 + BitVec.ofNat 16 i := by
    rw [BitVec.add_assoc, show (1 : Word) = BitVec.ofNat 16 1 from rfl, ← BitVec.ofNat_add, Nat.add_comm 1 i]
  simp [stringWord, this]

theorem stringWord_moved {s t : State} (h : Moved s t) (a : Word) (i : Nat) : stringWord t a i = stringWord s a i :=
  h.memPeek _

theorem stringBytes_succ (chars : Word → List Byte) (s : State) (a : Word) (n : Nat) :
    stringBytes chars s a (n + 1) = chars (memPeek a s) ++ stringBytes chars s (a + 1) n := by
  simp only [stringBytes, List.range_succ_eq_map, List.flatMap_cons, List.flatMap_map, stringWord_zero]
  simp [stringWord_succ]

theorem stringBytes_moved {s t : State} (h : Moved s t) (chars : Word → List Byte) (a : Word) (n : Nat) :
    stringBytes chars t a n = stringBytes chars s a n := by
  simp [stringBytes, stringWord_moved h]

/-- Everything a stretch of `n` words of a scan can do. -/
theorem stringLoop_cases (chars : Word → List Byte) : ∀ (n : Nat) (f : Bool) (a : Word) (s : State),
    (∃ k t, k < n ∧ (∀ i, i < k → stringWord s a i ≠ 0#16) ∧ stringWord s a k = 0#16 ∧
      stringLoop params chars n f a s = .ended t ∧ Moved s t ∧ t.out = s.out ++ stringBytes chars s a k) ∨
    (∃ k t m, k < n ∧ (∀ i, i ≤ k → stringWord s a i ≠ 0#16) ∧ m < (stringBytes chars s a (k + 1)).length ∧
      (f = true → chars (memPeek a s) ≠ [] → 0 < m) ∧
      stringLoop params chars n f a s = .interrupted t ∧ Moved s t ∧ t.intr = true ∧
      t.out = s.out ++ (stringBytes chars s a (k + 1)).take m) ∨
    (∃ t, (∀ i, i < n → stringWord s a i ≠ 0#16) ∧
      stringLoop params chars n f a s = .unfinished (a + BitVec.ofNat 16 n) t ∧ Moved s t ∧
      t.out = s.out ++ stringBytes chars s a n)
  | 0, f, a, s => .inr (.inr ⟨s, by simp, by simp [stringLoop], Moved.refl s, by simp [stringBytes]⟩)
  | n + 1, f, a, s => by
    by_cases hz : memPeek a s = 0#16
    · exact .inl ⟨0, s, by simp, by simp, by simpa [stringWord_zero] using hz,
        by simp [stringLoop, hz], Moved.refl s, by simp [stringBytes]⟩
    cases hp : printChars f (chars (memPeek a s)) s with
    | interrupted t =>
      obtain ⟨h1, h2, m, hm, hf, h3⟩ := printChars_interrupted hp
      refine .inr (.inl ⟨0, t, m, by simp, ?_, ?_, fun h _ => hf h, by simp [stringLoop, hz, hp], h1, h2, ?_⟩)
      · intro i hi
        obtain rfl : i = 0 := by omega
        simpa [stringWord_zero] using hz
      · rw [stringBytes_succ]; simp; omega
      · rw [h3, stringBytes_succ, List.take_append_of_le_length hm.le]
    | done u =>
      obtain ⟨h1, h2⟩ := printChars_done hp
      have hstep : stringLoop params chars (n + 1) f a s = stringLoop params chars n false (a + 1) u := by
        simp [stringLoop, hz, hp]
      have hnz : ∀ k, (∀ i, i < k → stringWord u (a + 1) i ≠ 0#16) → ∀ i, i < k + 1 → stringWord s a i ≠ 0#16 := by
        intro k hk i hi
        cases i with
        | zero => simpa [stringWord_zero] using hz
        | succ i => rw [stringWord_succ, ← stringWord_moved h1]; exact hk i (by omega)
      have hbytes : ∀ k, s.out ++ stringBytes chars s a (k + 1) = u.out ++ stringBytes chars u (a + 1) k := by
        intro k; rw [stringBytes_succ, h2, stringBytes_moved h1]; simp
      rw [hstep]
      rcases stringLoop_cases chars n false (a + 1) u with h | h | h
      · obtain ⟨k, t, hk, h3, h4, h5, h6, h7⟩ := h
        exact .inl ⟨k + 1, t, by omega, hnz k h3, by rw [stringWord_succ, ← stringWord_moved h1, h4], h5, h1.trans h6,
          by rw [h7, hbytes]⟩
      · obtain ⟨k, t, m, hk, h3, hm, _, h4, h5, h6, h7⟩ := h
        refine .inr (.inl ⟨k + 1, t, (chars (memPeek a s)).length + m, by omega, ?_, ?_,
          fun _ hc => Nat.add_pos_left (List.length_pos_of_ne_nil hc) m, h4, h1.trans h5, h6, ?_⟩)
        · intro i hi
          exact hnz (k + 1) (fun j hj => h3 j (by omega)) i (by omega)
        · rw [stringBytes_succ, ← stringBytes_moved h1]; simp; omega
        · rw [h7, h2, stringBytes_succ (n := k + 1), ← stringBytes_moved h1, List.take_length_add_append,
            List.append_assoc]
      · obtain ⟨t, h3, h4, h5, h6⟩ := h
        refine .inr (.inr ⟨t, hnz n h3, ?_, h1.trans h5, by rw [h6, hbytes]⟩)
        rw [h4, BitVec.add_assoc, show (1 : Word) = BitVec.ofNat 16 1 from rfl, ← BitVec.ofNat_add, Nat.add_comm 1 n]

end Sys2Proof.Machine
end

