-- ==== Sys2Proof/Laws/Routines.lean ====
section
/-! SUPPORT. What the trap routines and the step can do, said once: inversion lemmas that provers cite in place of unfolding. -/

namespace Sys2Proof.Machine

/-! ### storeChar (43_trap.md R142, R145) -/

theorem storeChar_reg (c : Byte) (s : State) (r : Reg) :
    (storeChar c s).reg r = if r = .r0 then charWord c else s.reg r := by
  have h : (storeChar c s).reg r = (writeResult trapReg (charWord c) s).reg r := State.reg_congr rfl r
  rw [h, writeResult_reg]
  rfl

@[simp] theorem storeChar_cond (c : Byte) (s : State) : (storeChar c s).cond = flagOf (charWord c) := rfl
@[simp] theorem storeChar_phase (c : Byte) (s : State) : (storeChar c s).phase = .fetch := rfl
@[simp] theorem storeChar_pc (c : Byte) (s : State) : (storeChar c s).pc = s.pc := by simp [storeChar]
@[simp] theorem storeChar_run (c : Byte) (s : State) : (storeChar c s).run = s.run := by simp [storeChar]
@[simp] theorem storeChar_mem (c : Byte) (s : State) : (storeChar c s).mem = s.mem := by simp [storeChar]
@[simp] theorem storeChar_inq (c : Byte) (s : State) : (storeChar c s).inq = s.inq := by simp [storeChar]
@[simp] theorem storeChar_out (c : Byte) (s : State) : (storeChar c s).out = s.out := by simp [storeChar]
@[simp] theorem storeChar_diag (c : Byte) (s : State) : (storeChar c s).diag = s.diag := by simp [storeChar]
@[simp] theorem storeChar_intr (c : Byte) (s : State) : (storeChar c s).intr = s.intr := by simp [storeChar]
@[simp] theorem storeChar_host (c : Byte) (s : State) : (storeChar c s).host = s.host := by simp [storeChar]
@[simp] theorem storeChar_draws (c : Byte) (s : State) : (storeChar c s).draws = s.draws := by simp [storeChar]
@[simp] theorem memPeek_storeChar (a : Word) (c : Byte) (s : State) : memPeek a (storeChar c s) = memPeek a s := by
  simp [memPeek]

theorem Moved.setInq {s t : State} (h : Moved s t) (q : List Byte) : Moved s (t.setInq q) := by
  refine ⟨?_, h.2⟩
  have h1 := congrArg (State.setInq · q) h.1
  exact h1

/-! ### With the spec's parameters TRAP itself does nothing (43_trap.md R141) -/

@[simp] theorem trapEntry_params (s : State) : trapEntry params s = s := rfl

theorem exec_getc (s : State) : exec .getc s = .next (getcRead s) := rfl
theorem exec_inEcho (s : State) : exec .inEcho s = .next (inStart params s) := rfl
theorem exec_out (s : State) : exec .out s = .next (writeChar (lowByte (s.reg .r0)) s) := rfl
theorem exec_halt (s : State) : exec .halt s = .next (haltTrap s) := rfl
theorem exec_puts (s : State) :
    exec .puts s = finishScan .puts (stringLoop params putsChars scanLimit true (s.reg .r0) s) := rfl
theorem exec_putsp (s : State) :
    exec .putsp s = finishScan .putsp (stringLoop params putspChars scanLimit true (s.reg .r0) s) := rfl

/-! ### GETC and IN -/

/-- Everything GETC can do from its ReadChar on. -/
theorem getcRead_cases (s : State) :
    (∃ c rest, (hostTurn s).inq = c :: rest ∧ getcRead s = storeChar c ((hostTurn s).setInq rest)) ∨
    ((hostTurn s).inq = [] ∧ (hostTurn s).intr = false ∧ getcRead s = (hostTurn s).setPhase .getc) ∨
    ((hostTurn s).inq = [] ∧ (hostTurn s).intr = true ∧ getcRead s = interruptHalt (hostTurn s)) := by
  rcases readChar_cases s with ⟨c, rest, h, hr⟩ | ⟨h, h', hr⟩ | ⟨h, h', hr⟩
  · exact .inl ⟨c, rest, h, by simp [getcRead, hr]⟩
  · exact .inr (.inl ⟨h, h', by simp [getcRead, hr]⟩)
  · exact .inr (.inr ⟨h, h', by simp [getcRead, hr]⟩)

/-- Everything IN can do from its ReadChar on: the echo and the store, the wait, or the interrupt with nothing echoed. -/
theorem inRead_cases (p : Params) (s : State) :
    (∃ c u, Moved s u ∧ u.out = s.out ++ [c] ∧ inRead p s = storeChar c u) ∨
    ((hostTurn s).inq = [] ∧ (hostTurn s).intr = false ∧ inRead p s = (hostTurn s).setPhase .inEcho) ∨
    (∃ u, Moved s u ∧ u.out = s.out ∧ u.intr = true ∧ inRead p s = interruptHalt u) := by
  rcases readChar_cases s with ⟨c, rest, h, hr⟩ | ⟨h, h', hr⟩ | ⟨h, h', hr⟩
  · have hm := (moved_hostTurn s).setInq rest
    cases hw : writeNext p.inPrompt.isEmpty c ((hostTurn s).setInq rest) with
    | done u =>
      obtain ⟨h1, h2⟩ := writeNext_done hw
      exact .inl ⟨c, u, hm.trans h1, by simpa using h2, by simp [inRead, hr, hw]⟩
    | interrupted u =>
      obtain ⟨_, h2, h3⟩ := writeNext_interrupted hw
      refine .inr (.inr ⟨u, ?_, by simp [h2], h3, by simp [inRead, hr, hw]⟩)
      rw [h2]
      exact hm.trans (moved_hostTurn _)
  · exact .inr (.inl ⟨h, h', by simp [inRead, hr]⟩)
  · exact .inr (.inr ⟨_, moved_hostTurn s, by simp, h', by simp [inRead, hr]⟩)

/-- Everything IN can do: the prompt and then the rest, or the interrupt inside the prompt. -/
theorem inStart_cases (p : Params) (s : State) :
    (∃ u, printChars true p.inPrompt s = .done u ∧ Moved s u ∧ u.out = s.out ++ p.inPrompt ∧ inStart p s = inRead p u) ∨
    (∃ u m, Moved s u ∧ u.intr = true ∧ m < p.inPrompt.length ∧ 0 < m ∧ u.out = s.out ++ p.inPrompt.take m ∧
      inStart p s = interruptHalt u) := by
  cases h : printChars true p.inPrompt s with
  | done u =>
    obtain ⟨h1, h2⟩ := printChars_done h
    exact .inl ⟨u, rfl, h1, h2, by simp [inStart, h]⟩
  | interrupted u =>
    obtain ⟨h1, h2, m, hm, hf, h3⟩ := printChars_interrupted h
    exact .inr ⟨u, m, h1, h2, hm, hf rfl, h3, by simp [inStart, h]⟩

/-! ### PUTS and PUTSP -/

/-- Everything a scan's stretch in one step can do, with the spec's parameters: it never faults. -/
theorem finishScan_cases (goOn : Word → Phase) (chars : Word → List Byte) (n : Nat) (f : Bool) (a : Word) (s : State) :
    (∃ k u, k < n ∧ (∀ i, i < k → stringWord s a i ≠ 0#16) ∧ stringWord s a k = 0#16 ∧ Moved s u ∧
      u.out = s.out ++ stringBytes chars s a k ∧ stringLoop params chars n f a s = .ended u ∧
      finishScan goOn (stringLoop params chars n f a s) = .next (u.setPhase .fetch)) ∨
    (∃ k u m, k < n ∧ (∀ i, i ≤ k → stringWord s a i ≠ 0#16) ∧ m < (stringBytes chars s a (k + 1)).length ∧
      (f = true → chars (memPeek a s) ≠ [] → 0 < m) ∧ Moved s u ∧
      u.intr = true ∧ u.out = s.out ++ (stringBytes chars s a (k + 1)).take m ∧
      stringLoop params chars n f a s = .interrupted u ∧
      finishScan goOn (stringLoop params chars n f a s) = .next (interruptHalt u)) ∨
    (∃ u, (∀ i, i < n → stringWord s a i ≠ 0#16) ∧ Moved s u ∧ u.out = s.out ++ stringBytes chars s a n ∧
      stringLoop params chars n f a s = .unfinished (a + BitVec.ofNat 16 n) u ∧
      finishScan goOn (stringLoop params chars n f a s) = .next (u.setPhase (goOn (a + BitVec.ofNat 16 n)))) := by
  rcases stringLoop_cases chars n f a s with ⟨k, t, hk, h1, h2, h3, h4, h5⟩ | ⟨k, t, m, hk, h1, h2, h7, h3, h4, h5, h6⟩ |
    ⟨t, h1, h2, h3, h4⟩
  · exact .inl ⟨k, t, hk, h1, h2, h4, h5, h3, by rw [h3]; rfl⟩
  · exact .inr (.inl ⟨k, t, m, hk, h1, h2, h7, h4, h5, h6, h3, by rw [h3]; rfl⟩)
  · exact .inr (.inr ⟨t, h1, h3, h4, h2, by rw [h2]; rfl⟩)

/-- Without an interrupt no scan is cut short. -/
theorem stringLoop_uninterrupted (chars : Word → List Byte) : ∀ (n : Nat) (f : Bool) (a : Word) {s : State},
    Uninterrupted s → ∀ t, stringLoop params chars n f a s ≠ .interrupted t
  | 0, _, _, _, _, _ => by simp [stringLoop]
  | n + 1, f, a, s, h, t => by
    by_cases hz : memPeek a s = 0#16
    · simp [stringLoop, hz]
    · obtain ⟨u, h1, _, h3⟩ := printChars_uninterrupted f (chars (memPeek a s)) h
      have := stringLoop_uninterrupted chars n false (a + 1) h3 t
      simpa [stringLoop, hz, h1] using this

/-! ### The step (60_exceptions.md R171, R173, R180) -/

theorem step_halted {s : State} (h : s.run = .halted) : step s = .next s := by simp [step, h]

theorem step_interrupt {s : State} (hr : s.run = .running) (hp : s.phase = .fetch) (hi : (hostTurn s).intr = true) :
    step s = .next (interruptHalt (hostTurn s)) := by simp [step, hr, hp, hi]

theorem step_fetch {s : State} (hr : s.run = .running) (hp : s.phase = .fetch) (hi : (hostTurn s).intr = false) :
    step s = exec (decode (fetchWord params (hostTurn s))) (fetchState params (hostTurn s)) := by simp [step, hr, hp, hi]

theorem step_getc {s : State} (hr : s.run = .running) (hp : s.phase = .getc) : step s = .next (getcRead s) := by
  simp [step, hr, hp, resumeGetc]

theorem step_inEcho {s : State} (hr : s.run = .running) (hp : s.phase = .inEcho) : step s = .next (inRead params s) := by
  simp [step, hr, hp, resumeIn]

theorem step_puts {s : State} {a : Word} (hr : s.run = .running) (hp : s.phase = .puts a) :
    step s = finishScan .puts (stringLoop params putsChars scanLimit false a s) := by
  simp [step, hr, hp, resumePuts, putsScan]

theorem step_putsp {s : State} {a : Word} (hr : s.run = .running) (hp : s.phase = .putsp a) :
    step s = finishScan .putsp (stringLoop params putspChars scanLimit false a s) := by
  simp [step, hr, hp, resumePutsp, putspScan]

end Sys2Proof.Machine
end

