-- ==== Sys2Proof/Laws/Inversion.lean ====
section
/-! SUPPORT. The inversion of `exec`, said once: everything a well-formed instruction can do. Provers of the rules over all
instructions cite `exec_end` and split its six cases. -/

namespace Sys2Proof.Machine

/-- How a routine that uses the terminal leaves a step; `char` says whether it reads a character (GETC, IN). -/
inductive TrapEnd (s : State) (char : Bool) : State → Prop
  /-- the external interrupt ended it -/
  | interrupted (u : State) (hm : Moved s u) (hi : u.intr = true) : TrapEnd s char (interruptHalt u)
  /-- a character went to R0 -/
  | stored (c : Byte) (u : State) (hm : Moved s u) (hc : char = true) : TrapEnd s char (storeChar c u)
  /-- it is complete, or goes on in the next step -/
  | standsAt (u : State) (ph : Phase) (hm : Moved s u) (hc : char = true → ph = .getc ∨ ph = .inEcho) :
    TrapEnd s char (u.setPhase ph)

theorem trapEnd_getcRead (s : State) : TrapEnd s true (getcRead s) := by
  rcases getcRead_cases s with ⟨c, r, _, e⟩ | ⟨_, _, e⟩ | ⟨_, h', e⟩ <;> rw [e]
  · exact .stored _ _ ((moved_hostTurn s).setInq r) rfl
  · exact .standsAt _ _ (moved_hostTurn s) (by simp)
  · exact .interrupted _ (moved_hostTurn s) h'

theorem trapEnd_inRead (p : Params) {s u : State} (hm : Moved s u) : TrapEnd s true (inRead p u) := by
  rcases inRead_cases p u with ⟨c, v, h, _, e⟩ | ⟨_, _, e⟩ | ⟨v, h, _, h', e⟩ <;> rw [e]
  · exact .stored _ _ (hm.trans h) rfl
  · exact .standsAt _ _ (hm.trans (moved_hostTurn u)) (by simp)
  · exact .interrupted _ (hm.trans h) h'

theorem trapEnd_inStart (p : Params) (s : State) : TrapEnd s true (inStart p s) := by
  rcases inStart_cases p s with ⟨u, _, h, _, e⟩ | ⟨u, m, h, h', _, _, _, e⟩ <;> rw [e]
  · exact trapEnd_inRead p h
  · exact .interrupted _ h h'

theorem trapEnd_scan (goOn : Word → Phase) (chars : Word → List Byte) (n : Nat) (f : Bool) (a : Word) (s : State) :
    ∃ t, finishScan goOn (stringLoop params chars n f a s) = .next t ∧ TrapEnd s false t := by
  rcases finishScan_cases goOn chars n f a s with ⟨_, u, _, _, _, h, _, _, e⟩ | ⟨_, u, _, _, _, _, _, h, h', _, _, e⟩ |
    ⟨u, _, h, _, _, e⟩ <;> rw [e]
  · exact ⟨_, rfl, .standsAt _ _ h (by simp)⟩
  · exact ⟨_, rfl, .interrupted _ h h'⟩
  · exact ⟨_, rfl, .standsAt _ _ h (by simp)⟩

/-- The state after `k` polls. -/
def polls : Nat → State → State
  | 0, s => s
  | k + 1, s => polls k (poll params s)

/-- The instructions that stop the machine themselves, each with its event (60_exceptions.md R174). -/
inductive HaltEvent : Instr → Diag → Prop
  | halt : HaltEvent .halt .haltNotice
  | reserved8 : HaltEvent .reserved8 (.raised (.illegalOpcode 8))
  | reserved13 : HaltEvent .reserved13 (.raised (.illegalOpcode 13))
  | trap (code : Byte) (h : code.toNat < 0x20 ∨ 0x25 < code.toNat) :
    HaltEvent (.trap code) (.raised (.unrecognizedTrapCode code))

/-- Everything an instruction can do from `s`, with what the tables of Safety.lean say of it. -/
inductive ExecEnd (i : Instr) (s : State) : State → Prop
  /-- GETC, IN, PUTS, PUTSP -/
  | terminal (char : Bool) (t : State) (h : TrapEnd s char t) (hr : i.row = .trap) (hp : pollCount i = 1)
      (hpc : ∀ u, pcAfter i u = u.pc)
      (hf : if char = true then flagWrite i = some .r0 ∧ writtenRegs i = [.r0] else flagWrite i = none) :
    ExecEnd i s t
  /-- a flag-triggering write after the instruction's own polls -/
  | result (dr : Reg) (v : Word) (k : Nat) (hp : pollCount i = k + 1) (hf : flagWrite i = some dr)
      (hw : writtenRegs i = [dr]) (hpc : ∀ u, pcAfter i u = u.pc) : ExecEnd i s (writeResult dr v (polls k s))
  /-- a store after the instruction's own polls -/
  | store (ea v : Word) (k : Nat) (hp : pollCount i = k + 1) (hs : storedCells i s = [ea]) (hf : flagWrite i = none)
      (hpc : ∀ u, pcAfter i u = u.pc) : ExecEnd i s (memWrite ea v (polls k s))
  /-- BR, JMP, JSR, JSRR -/
  | jump (u : State) (h : u = s ∨ (u = s.setReg .r7 s.pc ∧ writtenRegs i = [.r7])) (hp : pollCount i = 1)
      (hf : flagWrite i = none) : ExecEnd i s (u.setPc (pcAfter i s))
  /-- OUT -/
  | out (b : Byte) (hi : i = .out) : ExecEnd i s (writeChar b s)
  /-- the machine stops itself -/
  | halted (e : Diag) (he : HaltEvent i e) : ExecEnd i s { s with diag := s.diag ++ [e], run := .halted }

theorem decodeTrap_wellFormed (code : Byte) : (decodeTrap code).wellFormed = true := by
  unfold decodeTrap
  split_ifs <;> simp_all [Instr.wellFormed, Config.isDefinedTrap]

/-- The decoder gives well-formed instructions only. -/
theorem decode_wellFormed (w : Word) : (decode w).wellFormed = true := by
  unfold decode
  split <;> first | rfl | exact decodeTrap_wellFormed _ | (split_ifs <;> rfl)

/-- BR's test in the rule's words (41_control.md R121). -/
theorem branchTaken_iff (n z p : Bool) (c : Cond) :
    branchTaken n z p c = true ↔ (n = true ∧ c = .neg) ∨ (z = true ∧ c = .zero) ∨ (p = true ∧ c = .pos) := by
  cases n <;> cases z <;> cases p <;> cases c <;> decide

/-- The codes no routine has (43_trap.md R149). -/
theorem undefinedTrap_range {code : Byte} (h : Config.isDefinedTrap code = false) : code.toNat < 0x20 ∨ 0x25 < code.toNat := by
  revert code
  decide

/-- An unrecognised code raises the exception and does nothing else. -/
theorem exec_trap_undefined {code : Byte} (h : Config.isDefinedTrap code = false) (s : State) :
    exec (.trap code) s = .next (raise (.unrecognizedTrapCode code) s) := by
  simp only [Config.isDefinedTrap, Bool.or_eq_false_iff, beq_eq_false_iff_ne] at h
  show execTrap code s = _
  simp [execTrap, h]
  rfl

/-- The inversion of `exec`. -/
theorem exec_end {i : Instr} {s t : State} (hwf : i.wellFormed = true) (h : exec i s = .next t) : ExecEnd i s t := by
  cases i with
  | br n z p offset9 =>
    have h := Host.Outcome.next.inj h
    have ht : t = s.setPc (pcAfter (.br n z p offset9) s) := by
      simp only [branchTaken_iff] at h
      rw [← h]
      simp only [pcAfter]
      split_ifs <;> rfl
    rw [ht]
    exact .jump s (.inl rfl) rfl rfl
  | addReg _ _ _ => cases h; exact .result _ _ 0 rfl rfl rfl fun _ => rfl
  | addImm _ _ _ => cases h; exact .result _ _ 0 rfl rfl rfl fun _ => rfl
  | andReg _ _ _ => cases h; exact .result _ _ 0 rfl rfl rfl fun _ => rfl
  | andImm _ _ _ => cases h; exact .result _ _ 0 rfl rfl rfl fun _ => rfl
  | notReg _ _ => cases h; exact .result _ _ 0 rfl rfl rfl fun _ => rfl
  | lea _ _ => cases h; exact .result _ _ 0 rfl rfl rfl fun _ => rfl
  | ld _ _ => cases h; exact .result _ _ 1 rfl rfl rfl fun _ => rfl
  | ldr _ _ _ => cases h; exact .result _ _ 1 rfl rfl rfl fun _ => rfl
  | ldi _ _ => cases h; exact .result _ _ 2 rfl rfl rfl fun _ => rfl
  | st _ _ => cases h; exact .store _ _ 0 rfl rfl rfl fun _ => rfl
  | str _ _ _ => cases h; exact .store _ _ 0 rfl rfl rfl fun _ => rfl
  | sti _ _ => cases h; exact .store _ _ 1 rfl rfl rfl fun _ => rfl
  | jmp _ => cases h; exact .jump s (.inl rfl) rfl rfl
  | jsr _ => cases h; exact .jump _ (.inr ⟨rfl, rfl⟩) rfl rfl
  | jsrr baseR =>
    have ht : t = (s.setReg .r7 s.pc).setPc (pcAfter (.jsrr baseR) s) := by
      rw [← Host.Outcome.next.inj h]
      simp [State.reg_setReg, linkReg, pcAfter]
    rw [ht]
    exact .jump _ (.inr ⟨rfl, rfl⟩) rfl rfl
  | reserved8 => cases h; exact .halted _ .reserved8
  | reserved13 => cases h; exact .halted _ .reserved13
  | halt => cases h; exact .halted _ .halt
  | out => cases h; exact .out _ rfl
  | getc => cases h; exact .terminal true _ (trapEnd_getcRead s) rfl rfl (fun _ => rfl) ⟨rfl, rfl⟩
  | inEcho => cases h; exact .terminal true _ (trapEnd_inStart _ s) rfl rfl (fun _ => rfl) ⟨rfl, rfl⟩
  | puts =>
    obtain ⟨u, h1, h2⟩ := trapEnd_scan .puts putsChars scanLimit true (s.reg .r0) s
    rw [exec_puts, h1] at h
    cases h
    exact .terminal false _ h2 rfl rfl (fun _ => rfl) rfl
  | putsp =>
    obtain ⟨u, h1, h2⟩ := trapEnd_scan .putsp putspChars scanLimit true (s.reg .r0) s
    rw [exec_putsp, h1] at h
    cases h
    exact .terminal false _ h2 rfl rfl (fun _ => rfl) rfl
  | trap code =>
    simp only [Instr.wellFormed, Bool.not_eq_true'] at hwf
    rw [exec_trap_undefined hwf] at h
    cases h
    exact .halted _ (.trap code (undefinedTrap_range hwf))

end Sys2Proof.Machine
end

