-- ==== Sys2Proof/Tests/Slice0.lean ====
section
/-! SUPPORT. Tests. Expected results are the spec's: the words and vectors of 95_test_vectors.md (named V-…), the examples of
its part 1 (S…), or the rule named. Then, for every obligation with hypotheses, a witness that meets them. -/

namespace Sys2Proof.Tests

open Sys2Proof Sys2Proof.Machine

/-! ### The WellFormed check: an ill-formed term for each code it refuses -/

theorem test_wf_trap20 : (Instr.trap 0x20).wellFormed = false := by decide
theorem test_wf_trap21 : (Instr.trap 0x21).wellFormed = false := by decide
theorem test_wf_trap22 : (Instr.trap 0x22).wellFormed = false := by decide
theorem test_wf_trap23 : (Instr.trap 0x23).wellFormed = false := by decide
theorem test_wf_trap24 : (Instr.trap 0x24).wellFormed = false := by decide
theorem test_wf_trap25 : (Instr.trap 0x25).wellFormed = false := by decide
theorem test_wf_edges : (Instr.trap 0x1F).wellFormed = true ∧ (Instr.trap 0x26).wellFormed = true := by decide

/-! ### Decoding: a word of every constructor, written out from 30_encoding.md R82, R91 and 95_test_vectors.md -/

theorem test_decode_br : decode 0b0000_1_0_0_111111101 = .br true false false 0x1FD := by decide
theorem test_decode_br_p : decode 0b0000_0_0_1_100000000 = .br false false true 0x100 := by decide
theorem test_decode_addReg : decode 0b0001_010_000_000_001 = .addReg .r2 .r0 .r1 := by decide
theorem test_decode_addReg_ignored : decode 0b0001_010_000_011_001 = .addReg .r2 .r0 .r1 := by decide
theorem test_decode_addImm : decode 0b0001_001_000_1_10110 = .addImm .r1 .r0 0x16 := by decide
theorem test_decode_ld : decode 0b0010_001_000000010 = .ld .r1 2 := by decide
theorem test_decode_st : decode 0b0011_001_000000010 = .st .r1 2 := by decide
theorem test_decode_jsr : decode 0b0100_1_00000000010 = .jsr 2 := by decide
theorem test_decode_jsrr : decode 0b0100_0_00_010_000000 = .jsrr .r2 := by decide
theorem test_decode_jsrr_ignored : decode 0b0100_0_11_010_111111 = .jsrr .r2 := by decide
theorem test_decode_andReg : decode 0b0101_011_001_000_010 = .andReg .r3 .r1 .r2 := by decide
theorem test_decode_andImm : decode 0b0101_000_000_1_00000 = .andImm .r0 .r0 0 := by decide
theorem test_decode_ldr : decode 0b0110_011_100_111111 = .ldr .r3 .r4 0x3F := by decide
theorem test_decode_str : decode 0b0111_011_100_000101 = .str .r3 .r4 5 := by decide
theorem test_decode_reserved8 : decode 0b1000_101010111100 = .reserved8 := by decide
theorem test_decode_notReg : decode 0b1001_001_000_111111 = .notReg .r1 .r0 := by decide
theorem test_decode_notReg_ignored : decode 0b1001_001_000_000000 = .notReg .r1 .r0 := by decide
theorem test_decode_ldi : decode 0b1010_010_000000001 = .ldi .r2 1 := by decide
theorem test_decode_sti : decode 0b1011_010_000000001 = .sti .r2 1 := by decide
theorem test_decode_jmp : decode 0b1100_000_111_000000 = .jmp .r7 := by decide
theorem test_decode_jmp_ignored : decode 0b1100_111_011_111111 = .jmp .r3 := by decide
theorem test_decode_reserved13 : decode 0b1101_111111111111 = .reserved13 := by decide
theorem test_decode_lea : decode 0b1110_000_111111111 = .lea .r0 0x1FF := by decide
theorem test_decode_trap : decode 0b1111_0000_00100110 = .trap 0x26 := by decide
theorem test_decode_getc : decode 0b1111_0000_00100000 = .getc := by decide
theorem test_decode_out : decode 0b1111_0000_00100001 = .out := by decide
theorem test_decode_puts : decode 0b1111_0000_00100010 = .puts := by decide
theorem test_decode_inEcho : decode 0b1111_0000_00100011 = .inEcho := by decide
theorem test_decode_putsp : decode 0b1111_0000_00100100 = .putsp := by decide
theorem test_decode_halt : decode 0b1111_0000_00100101 = .halt := by decide
theorem test_decode_halt_ignored : decode 0b1111_1111_00100101 = .halt := by decide

/-! ### The host's two entry points -/

theorem test_table_decode : decodeTableWord 16 0x923F = some (.notReg .r1 .r0) := by decide

/-- The reset state with the word where the next step fetches. -/
def start (w : Nat) : State := State.reset.withFetchWord 16 w

/-- A field of the next state. -/
def field {α : Type} (f : State → α) : Result → Option α
  | .next s => some (f s)
  | .fault _ => none
  | .refused _ => none

theorem test_withFetchWord : (start 0x1021).pc = 0x3000 ∧ memPeek 0x3000 (start 0x1021) = 0x1021 := by decide

/-! ### One step -/

/-- V-ADD-1 -/
theorem test_addReg : field (fun t => (t.reg .r2, t.cond)) (step (((start 0x1401).setReg .r0 5).setReg .r1 3)) =
    some (8, .pos) := by decide
/-- V-ADD-7: source is also destination, carry out lost -/
theorem test_addReg_wrap : field (fun t => (t.reg .r3, t.cond)) (step ((start 0x16C3).setReg .r3 0x8000)) =
    some (0, .zero) := by decide
/-- V-ADD-3 -/
theorem test_addImm_overflow : field (fun t => (t.reg .r0, t.cond)) (step ((start 0x1021).setReg .r0 0x7FFF)) =
    some (0x8000, .neg) := by decide
/-- V-ADD-6 -/
theorem test_addImm_negative : field (fun t => (t.reg .r1, t.cond)) (step ((start 0x1236).setReg .r0 1)) =
    some (0xFFF7, .neg) := by decide
/-- V-AND-2 -/
theorem test_andReg : field (fun t => (t.reg .r3, t.cond))
    (step (((start 0x5642).setReg .r1 0xF0F0).setReg .r2 0xFF00)) = some (0xF000, .neg) := by decide
/-- V-AND-3: the mask is sign-extended -/
theorem test_andImm : field (fun t => (t.reg .r1, t.cond)) (step ((start 0x527F).setReg .r1 0x00FF)) =
    some (0x00FF, .pos) := by decide
/-- V-NOT-4 -/
theorem test_notReg : field (fun t => (t.reg .r2, t.cond)) (step ((start 0x94FF).setReg .r3 0x8000)) =
    some (0x7FFF, .pos) := by decide
/-- V-BR-1 -/
theorem test_br_taken :
    field (·.pc) (step (State.withFetchWord { State.reset with pc := 0x3003, cond := .neg } 16 0x09FD)) =
      some 0x3001 := by decide
/-- V-BR-2 -/
theorem test_br_not_taken :
    field (·.pc) (step (State.withFetchWord { State.reset with pc := 0x3003 } 16 0x09FD)) = some 0x3004 := by decide
/-- V-JMP-2 -/
theorem test_jmp : field (fun t => (t.pc, t.reg .r7)) (step ((start 0xC1C0).setReg .r7 0x3456)) =
    some (0x3456, 0x3456) := by decide
/-- V-JSR-2 -/
theorem test_jsr : field (fun t => (t.pc, t.reg .r7)) (step (start 0x4C00)) = some (0x2C01, 0x3001) := by decide
/-- V-JSRR-1 -/
theorem test_jsrr : field (fun t => (t.pc, t.reg .r7)) (step ((start 0x4080).setReg .r2 0x4000)) =
    some (0x4000, 0x3001) := by decide
/-- V-JSRR-2 -/
theorem test_jsrr_r7 : field (fun t => (t.pc, t.reg .r7)) (step ((start 0x41C0).setReg .r7 0x5000)) =
    some (0x3001, 0x3001) := by decide
/-- V-LD-2 -/
theorem test_ld : field (fun t => (t.reg .r1, t.cond)) (step (memWrite 0x2F01 1 (start 0x2300))) =
    some (1, .pos) := by decide
/-- V-LDI-1 -/
theorem test_ldi : field (fun t => (t.reg .r2, t.cond))
    (step ((memWrite 0x3002 0x4000 (start 0xA401)).setReg .r2 0x5555)) = some (0, .zero) := by decide
/-- V-DEV-7: the third of three polls is the operand's -/
theorem test_ldi_polls : field (fun t => (t.reg .r0, memPeek kbdrAddr t))
    (step ((memWrite 0x3002 0xFE00 (start 0xA001)).setInq [0x61, 0x62, 0x63])) = some (0x8000, 0x63) := by decide
/-- V-LDR-2: the address wraps -/
theorem test_ldr : field (fun t => (t.reg .r3, t.cond)) (step (memWrite 0xFFFF 0x42 (start 0x673F))) =
    some (0x42, .pos) := by decide
/-- V-DEV-2: the operand's own poll clears the ready bit -/
theorem test_ldr_status : field (fun t => (t.reg .r0, memPeek kbdrAddr t))
    (step (((start 0x6040).setReg .r1 0xFE00).setInq [0x61])) = some (0, 0x61) := by decide
/-- V-LEA-3 -/
theorem test_lea : field (fun t => (t.reg .r5, t.cond))
    (step (State.withFetchWord { State.reset with pc := 0x7F00 } 16 0xEAFF)) = some (0x8000, .neg) := by decide
/-- V-ST-1 -/
theorem test_st : field (fun t => (memPeek 0x3003 t, t.cond)) (step ((start 0x3202).setReg .r1 0xBEEF)) =
    some (0xBEEF, .zero) := by decide
/-- V-STI-1 -/
theorem test_sti : field (fun t => memPeek 0x4000 t)
    (step ((memWrite 0x3002 0x4000 (start 0xB401)).setReg .r2 0xCAFE)) = some 0xCAFE := by decide
/-- V-STR-2: the address wraps -/
theorem test_str : field (fun t => memPeek 0xFFF0 t)
    (step (((start 0x7720).setReg .r3 0x1234).setReg .r4 0x10)) = some 0x1234 := by decide
/-- V-DEV-11: the store overwrites what the fetch's poll wrote -/
theorem test_str_status : field (fun t => (memPeek kbsrAddr t, memPeek kbdrAddr t))
    (step ((((start 0x7440).setReg .r1 0xFE00).setReg .r2 0x1234).setInq [0x61])) = some (0x1234, 0x61) := by decide
/-- V-GETC-5: zero extension -/
theorem test_getc : field (fun t => (t.reg .r0, t.cond)) (step ((start 0xF020).setInq [0x61, 0xFF])) =
    some (0xFF, .pos) := by decide
/-- V-GETC-2: it waits, R0 unchanged -/
theorem test_getc_waits : field (fun t => (t.phase, t.reg .r0))
    (step (((start 0xF020).setReg .r0 0x1111).setInq [0x61])) = some (.getc, 0x1111) := by decide
/-- V-OUT-1 -/
theorem test_out : field (fun t => (t.out, t.reg .r0)) (step ((start 0xF021).setReg .r0 0x1248)) =
    some ([0x48], 0x1248) := by decide
/-- V-PUTS-2: the high byte is dropped, 0x0100 does not end the string -/
theorem test_puts : field (·.out)
    (step (memWrite 0x4000 0x1248 (memWrite 0x4001 0x0100 ((start 0xF022).setReg .r0 0x4000)))) =
    some [0x48, 0x00] := by decide
/-- V-PUTS-4: the scan wraps -/
theorem test_puts_wrap : field (·.out)
    (step (memWrite 0xFFFF 0x41 (memWrite 0x0000 0x42 ((start 0xF022).setReg .r0 0xFFFF)))) =
    some [0x41, 0x42] := by decide
/-- V-PUTSP-1 -/
theorem test_putsp : field (·.out)
    (step (memWrite 0x4000 0x6548 (memWrite 0x4001 0x006C ((start 0xF024).setReg .r0 0x4000)))) =
    some [0x48, 0x65, 0x6C] := by decide
/-- V-PUTSP-2: a zero low byte is written -/
theorem test_putsp_low_zero : field (·.out)
    (step (memWrite 0x4000 0x6900 ((start 0xF024).setReg .r0 0x4000))) = some [0x00, 0x69] := by decide
/-- V-IN-1, with a prompt of two bytes in place of the open one -/
theorem test_in : (inStart { params with inPrompt := [0x3E, 0x20] } (State.reset.setInq [0x79])).out = [0x3E, 0x20, 0x79] ∧
    (inStart { params with inPrompt := [0x3E, 0x20] } (State.reset.setInq [0x79])).reg .r0 = 0x79 := by decide
/-- V-IN-2, likewise -/
theorem test_in_waits : (inStart { params with inPrompt := [0x3E] } State.reset).phase = .inEcho ∧
    (inStart { params with inPrompt := [0x3E] } State.reset).out = [0x3E] := by decide
/-- V-HALT-1 -/
theorem test_halt : field (fun t => (t.run, t.diag)) (step (start 0xF025)) = some (.halted, [.haltNotice]) := by decide
/-- V-TRAP-4 -/
theorem test_trap : field (fun t => (t.run, t.diag)) (step (start 0xF0FF)) =
    some (.halted, [.raised (.unrecognizedTrapCode 0xFF)]) := by decide
/-- V-TRAP-2 -/
theorem test_trap_ignored : unknownTrap .ignore 0x26 (start 0xF026) = start 0xF026 := by decide
/-- V-RES-2 -/
theorem test_reserved8 : field (fun t => (t.diag, t.pc)) (step (start 0x8ABC)) =
    some ([.raised (.illegalOpcode 8)], 0x3001) := by decide
/-- V-RES-4 -/
theorem test_reserved13 : field (fun t => (t.diag, t.pc)) (step (start 0xDFFF)) =
    some ([.raised (.illegalOpcode 13)], 0x3001) := by decide
/-- V-INT-1 -/
theorem test_interrupt_first : field (fun t => (t.run, t.diag)) (step { start 0xF025 with intr := true }) =
    some (.halted, []) := by decide
/-- V-INT-3: the interrupt after PUTS's first WriteChar (the host's turns: before the step, at the fetch's poll, then it) -/
theorem test_interrupt_puts : field (fun t => (t.run, t.out))
    (step { memWrite 0x4000 0x48 (memWrite 0x4001 0x69 ((start 0xF022).setReg .r0 0x4000)) with
      host := [⟨[], false⟩, ⟨[], false⟩, ⟨[], true⟩] }) = some (.halted, [0x48]) := by decide
/-- V-DEV-12: an ADD consumes a character -/
theorem test_poll_consumes : field (fun t => (memPeek kbsrAddr t, t.inq)) (step ((start 0x1021).setInq [0x61])) =
    some (0x8000, []) := by decide

/-! ### The image load -/

/-- V-LOAD-1, with V-LOAD-3's odd byte dropped -/
theorem test_load : (match boot (some [0x30, 0x00, 0x12, 0x34, 0xAB]) with
    | .ok s => some (memPeek 0x3000 s, memPeek 0x3001 s)
    | .error _ => none) = some (0x1234, 0x0000) := by decide
/-- V-LOAD-6 -/
theorem test_load_overflow : (match boot (some [0xFF, 0xFF, 0x00, 0x01, 0x00, 0x02]) with
    | .ok _ => none
    | .error e => some e) = some LoadError.imageOverflowsAddressSpace := by decide
/-- V-LOAD-7 -/
theorem test_load_top : (match boot (some [0xFF, 0xFF, 0x00, 0x01]) with
    | .ok s => some (memPeek 0xFFFF s)
    | .error _ => none) = some 1 := by decide

/-! ### Witnesses: for every obligation with hypotheses, a concrete state and operands that meet them together -/

/-- The machine about to execute, a turn of the host holding the given bytes still to come. -/
def arriving (keys : List Byte) (i : Bool) (s : State) : State := { s with host := [⟨keys, i⟩] }

/-- The machine inside an instruction. -/
def inside (ph : Phase) (s : State) : State := { s with phase := ph }

theorem witness_DecodeEncodeRoundTrip : (Instr.trap 0x26).wellFormed = true ∧ Instr.getc.wellFormed = true := by decide

theorem witness_IgnoredBitsDoNotDecode :
    (0x1419 : Word) ≠ 0x1401 ∧ (0x1419 : Word) &&& coveredBits (decode 0x1401) = 0x1401 &&& coveredBits (decode 0x1401) := by
  decide

theorem witness_NoOperationWords : (0x01FF : Word).toNat < 0x200 := by decide

/-- The values where the three flags meet. -/
theorem witness_FlagUpdateRule :
    (0x8000 : Word).getLsbD 15 = true ∧ ((0x0000 : Word).getLsbD 15 = false ∧ (0x0000 : Word) = 0#16) ∧
    ((0x7FFF : Word).getLsbD 15 = false ∧ (0x7FFF : Word) ≠ 0#16) ∧ ((0x0001 : Word).getLsbD 15 = false ∧ (0x0001 : Word) ≠ 0#16) := by
  decide

theorem witness_MemWriteStoresOneCell : State.reset.mem.wf = true ∧ (hostTurn State.reset).inq = [] := by decide

theorem witness_HostTurnMovesOnlyTheHostSide :
    State.reset.host = [] ∧ (arriving [0x61] true State.reset).host = ⟨[0x61], true⟩ :: [] := by decide

/-- A character that was pending, and one that arrives with the poll itself. -/
theorem witness_PollRewritesTheDeviceCells :
    State.reset.mem.wf = true ∧ (hostTurn State.reset).inq = [] ∧
    (hostTurn (State.reset.setInq [0x61, 0x62])).inq = 0x61 :: [0x62] ∧
    (hostTurn (arriving [0x61] false State.reset)).inq = 0x61 :: [] := by decide

theorem witness_MemReadPollsAtEveryAddress :
    State.reset.mem.wf = true ∧ (0xFE01 : Word) ≠ kbsrAddr ∧ (0xFE01 : Word) ≠ kbdrAddr := by decide

/-- LoadsReadThroughThePoll, LdiReadsTwice, StoresWriteOneCell, StiWritesThroughThePointer. -/
theorem witness_loads_and_stores : (start 0x2202).mem.wf = true := by decide

theorem witness_GetcReadsOneCharacter :
    (hostTurn (State.reset.setInq [0x61, 0x62])).inq = 0x61 :: [0x62] ∧
    ((hostTurn State.reset).inq = [] ∧ (hostTurn State.reset).intr = false) ∧
    ((hostTurn (arriving [] true State.reset)).inq = [] ∧ (hostTurn (arriving [] true State.reset)).intr = true) := by decide

/-- The wait of GETC: with a character, with nothing, with the interrupt. -/
theorem witness_GetcWaitEndsWithInputOrInterrupt :
    (inside .getc State.reset).run = .running ∧ (inside .getc State.reset).phase = .getc ∧
    (hostTurn (arriving [0x61] false (inside .getc State.reset))).inq = 0x61 :: [] ∧
    ((hostTurn (inside .getc State.reset)).inq = [] ∧ (hostTurn (inside .getc State.reset)).intr = false) ∧
    ((hostTurn (arriving [] true (inside .getc State.reset))).inq = [] ∧
      (hostTurn (arriving [] true (inside .getc State.reset))).intr = true) := by decide

theorem uninterrupted_of_no_host {s : State} (hi : s.intr = false) (hh : s.host = []) : Uninterrupted s :=
  ⟨hi, by simp [hh]⟩

theorem witness_InPromptsReadsAndEchoes :
    Uninterrupted (State.reset.setInq [0x61]) ∧
    (State.reset.setInq [0x61]).inq ++ arrivals (Config.inPrompt.length - 1 + 1) (State.reset.setInq [0x61]) = 0x61 :: [] ∧
    Uninterrupted State.reset ∧ State.reset.inq ++ arrivals (Config.inPrompt.length - 1 + 1) State.reset = [] :=
  ⟨uninterrupted_of_no_host rfl rfl, by simp [arrivals, State.setInq, State.reset], uninterrupted_of_no_host rfl rfl,
    by simp [arrivals, State.reset]⟩

/-- Each clause; a character that arrives together with the interrupt too, and a halt. -/
theorem witness_InWaitEndsWithInputOrInterrupt :
    (inside .inEcho State.reset).run = .running ∧ (inside .inEcho State.reset).phase = .inEcho ∧
    (hostTurn (inside .inEcho (State.reset.setInq [0x61]))).inq = 0x61 :: [] ∧
    Uninterrupted (inside .inEcho (State.reset.setInq [0x61])) ∧
    (hostTurn (arriving [0x61] true (inside .inEcho State.reset))).inq = 0x61 :: [] ∧
    (hostTurn (hostTurn (arriving [0x61] true (inside .inEcho State.reset)))).intr = true ∧
    field (·.run) (step (arriving [] true (inside .inEcho State.reset))) = some .halted ∧
    ((hostTurn (inside .inEcho State.reset)).inq = [] ∧ (hostTurn (inside .inEcho State.reset)).intr = false) ∧
    ((hostTurn (arriving [] true (inside .inEcho State.reset))).inq = [] ∧
      (hostTurn (arriving [] true (inside .inEcho State.reset))).intr = true) :=
  ⟨rfl, rfl, rfl, uninterrupted_of_no_host rfl rfl, rfl, rfl, rfl, ⟨rfl, rfl⟩, rfl, rfl⟩

/-- "AB" at 0xFFFF and 0x0000, R0 at it. -/
def wrapped : State := memWrite 0xFFFF 0x41 (memWrite 0x0000 0x42 (State.reset.setReg .r0 0xFFFF))

/-- PutsWritesTheString, PutspWritesPackedCharacters: the empty string, and a string across the top of memory. -/
theorem witness_strings :
    Uninterrupted State.reset ∧ StringEndsAt State.reset (State.reset.reg .r0) 0 ∧
    Uninterrupted wrapped ∧ StringEndsAt wrapped (wrapped.reg .r0) 2 := by
  refine ⟨uninterrupted_of_no_host rfl rfl, ⟨by decide, by simp, by decide⟩, uninterrupted_of_no_host rfl rfl,
    by decide, ?_, by decide⟩
  intro i hi
  match i, hi with
  | 0, _ => decide
  | 1, _ => decide

/-- Memory with the word 1 in every cell. -/
@[irreducible] def ones : Memory := (List.range' 0 Config.memWords).map fun k => (k, 1#16)

theorem read_ones (n lo k : Nat) (hl : lo ≤ k) (hk : k < lo + n) :
    Memory.read k ((List.range' lo n).map fun j => (j, 1#16)) = 1#16 := by
  induction n generalizing lo with
  | zero => omega
  | succ n ih =>
    simp only [List.range'_succ, List.map_cons, Memory.read]
    split_ifs with h
    · rfl
    · exact ih (lo + 1) (by omega) (by omega)

theorem memPeek_ones {s : State} (h : s.mem = ones) (a : Word) : memPeek a s = 1#16 := by
  rw [memPeek, h, ones]
  exact read_ones Config.memWords 0 a.toNat (Nat.zero_le _) (Nat.lt_of_lt_of_eq a.isLt (Nat.zero_add _).symm)

theorem witness_EndlessStringNeverCompletes :
    Uninterrupted { State.reset with mem := ones } ∧ (∀ a, memPeek a { State.reset with mem := ones } ≠ 0#16) ∧
    (inside (.puts 5) { State.reset with mem := ones }).run = .running ∧
    (inside (.putsp 5) { State.reset with mem := ones }).phase = .putsp 5 :=
  ⟨uninterrupted_of_no_host rfl rfl, fun a => by rw [memPeek_ones (s := { State.reset with mem := ones }) rfl]; decide, rfl, rfl⟩

/-- "AB" at 0x4000, the interrupt to come after the first WriteChar. -/
def interruptedString : State :=
  arriving [] true (memWrite 0x4000 0x41 (memWrite 0x4001 0x42 (State.reset.setReg .r0 0x4000)))

theorem interruptedString_ends : StringEndsAt interruptedString 0x4000 2 := by
  refine ⟨by decide, ?_, by decide⟩
  intro i hi
  match i, hi with
  | 0, _ => decide
  | 1, _ => decide

/-- A string that ends, from the routine's start: the interrupt comes after the first WriteChar. -/
theorem witness_InterruptedRoutine_strings :
    interruptedString.run = .running ∧ ScanAhead .puts interruptedString (interruptedString.reg .r0) 2 .fetch ∧
    ScanAhead .putsp interruptedString (interruptedString.reg .r0) 2 .fetch ∧
    field (·.run) (exec .puts interruptedString) = some .halted ∧
    field (·.run) (exec .putsp interruptedString) = some .halted :=
  ⟨rfl, .inl ⟨interruptedString_ends, rfl⟩, .inl ⟨interruptedString_ends, rfl⟩, by decide, by decide⟩

/-- The same from the phases, where the interrupt comes before the next WriteChar; and the wait of IN. -/
theorem witness_InterruptedRoutine_phases :
    (inside (.puts 0x4000) interruptedString).run = .running ∧
    ScanAhead .puts (inside (.puts 0x4000) interruptedString) 0x4000 2 .fetch ∧
    field (·.out) (step (inside (.puts 0x4000) interruptedString)) = some [] ∧
    ScanAhead .putsp (inside (.putsp 0x4000) interruptedString) 0x4000 2 .fetch ∧
    field (·.run) (step (inside (.putsp 0x4000) interruptedString)) = some .halted ∧
    field (·.run) (step (arriving [] true (inside .inEcho State.reset))) = some .halted :=
  ⟨rfl, .inl ⟨interruptedString_ends, rfl⟩, by decide, .inl ⟨interruptedString_ends, rfl⟩, by decide, by decide⟩

/-- Every cell 1, the interrupt to come. -/
def interruptedOnes : State := arriving [] true { State.reset with mem := ones }

theorem memPeek_interruptedOnes (a : Word) : memPeek a interruptedOnes = 1#16 :=
  memPeek_ones (s := interruptedOnes) rfl a

/-- A scan over words that are 1: the first is written, the interrupt comes before the second. -/
theorem stringLoop_ones {s t u : State} (hs : ∀ a, memPeek a s = 1#16) (ht : ∀ a, memPeek a t = 1#16)
    (hd : printChars true (putsChars 1#16) s = .done t) (hi : printChars false (putsChars 1#16) t = .interrupted u) (n : Nat)
    (a : Word) : stringLoop params putsChars (n + 1 + 1) true a s = .interrupted u := by
  simp [stringLoop, hs, ht, hd, hi]

/-- The same where something has been written: the interrupt comes before the first. -/
theorem stringLoop_ones_resumed {s u : State} (hs : ∀ a, memPeek a s = 1#16)
    (hi : printChars false (putspChars 1#16) s = .interrupted u) (n : Nat) (a : Word) :
    stringLoop params putspChars (n + 1) false a s = .interrupted u := by
  simp [stringLoop, hs, hi]

/-- A string that does not end, from the start and from a phase: the interrupt ends it. -/
theorem witness_InterruptedRoutine_endless :
    ScanAhead .puts interruptedOnes (interruptedOnes.reg .r0) 65536 (.puts (interruptedOnes.reg .r0)) ∧
    field (fun t => (t.run, t.out)) (exec .puts interruptedOnes) = some (.halted, [1]) ∧
    ScanAhead .putsp (inside (.putsp 5) interruptedOnes) 5 65536 (.putsp 5) ∧
    field (fun t => (t.run, t.out)) (step (inside (.putsp 5) interruptedOnes)) = some (.halted, []) := by
  have hz := memPeek_interruptedOnes
  have hn : ∀ a, memPeek a interruptedOnes ≠ 0#16 := fun a => by rw [hz]; decide
  refine ⟨.inr ⟨hn, rfl, rfl⟩, ?_, .inr ⟨hn, rfl, rfl⟩, ?_⟩
  · rw [exec_puts, show scanLimit = 65534 + 1 + 1 by decide,
      stringLoop_ones hz (t := writeChar 1 interruptedOnes) hz rfl rfl]
    rfl
  · rw [step_putsp rfl rfl, show scanLimit = 65535 + 1 by decide,
      stringLoop_ones_resumed (s := inside (.putsp 5) interruptedOnes) hz rfl]
    rfl

/-- With no turn of the host to come, WriteChar calls take nothing from the queue. -/
theorem printChars_inq : ∀ (f : Bool) (bs : List Byte) {s t : State}, s.host = [] → printChars f bs s = .done t →
    t.inq = s.inq ∧ t.host = []
  | f, [], s, t, hh, h => by rw [printChars_nil] at h; cases h; exact ⟨rfl, hh⟩
  | f, b :: bs, s, t, hh, h => by
    have ht := hostTurn_idle hh
    simp only [printChars, writeNext, ht] at h
    cases f with
    | true => exact printChars_inq false bs (s := writeChar b s) hh (by simpa using h)
    | false =>
      cases hi : s.intr with
      | true => simp [hi] at h
      | false => exact printChars_inq false bs (s := writeChar b s) hh (by simpa [hi] using h)

/-- IN with nothing pending and the interrupt set, whatever the open prompt is. -/
theorem witness_InterruptedRoutine_in :
    ({ State.reset with intr := true } : State).run = .running ∧
    ∃ t, exec .inEcho { State.reset with intr := true } = .next t ∧ t.run = .halted := by
  refine ⟨rfl, _, exec_inEcho _, ?_⟩
  rcases inStart_cases params { State.reset with intr := true } with ⟨u, h1, h2, _, e⟩ | ⟨u, m, _, _, _, _, _, e⟩
  · obtain ⟨hq, hh⟩ := printChars_inq _ _ rfl h1
    have hq : u.inq = [] := hq
    have hi : u.intr = true := h2.2.intr rfl
    have hr : readChar u = .interrupted u := by
      have := readChar_interrupted (s := u) (by rw [hostTurn_idle hh, hq]) (by rw [hostTurn_idle hh, hi])
      rwa [hostTurn_idle hh] at this
    rw [e, inRead, hr]
    rfl
  · rw [e]
    rfl

/-- The codes on either side of the six. -/
theorem witness_UnknownTrapRaises : (0x1F : Byte).toNat < 0x20 ∧ 0x25 < (0x26 : Byte).toNat := by decide

/-- TrapDispatchesOnItsCode, which has no hypotheses: Words on both sides of its equivalences, ignored bits set. -/
theorem witness_TrapDispatchesOnItsCode :
    decode 0xFA20 = .getc ∧ decode 0xFA25 = .halt ∧ decode 0xFA1F = .trap 0x1F ∧ decode 0xFA26 = .trap 0x26 ∧
    decode 0xEA20 ≠ .getc := by decide

/-- StepRunsTheDecodedInstruction. -/
theorem witness_StepRunsTheDecodedInstruction :
    (start 0x1021).run = .running ∧ (start 0x1021).phase = .fetch ∧ (hostTurn (start 0x1021)).intr = false ∧
    decode (memPeek (start 0x1021).pc (poll params (hostTurn (start 0x1021)))) = .addImm .r0 .r0 1 := by decide

theorem witness_HaltedTakesNoStep : (setHalted State.reset).run = .halted := by decide

theorem witness_InterruptIsExaminedBeforeTheStep :
    (arriving [] true State.reset).run = .running ∧ (arriving [] true State.reset).phase = .fetch ∧
    (hostTurn (arriving [] true State.reset)).intr = true := by decide

/-- StepKeepsTheInvariant, StreamsOnlyGrow, StreamsAreNeverRead, InterruptRequestIsTheHosts: a step that answers, from a state
with the invariant. -/
theorem witness_step : (start 0x1021).Inv ∧ Uninterrupted (start 0x1021) ∧ ∃ t, step (start 0x1021) = .next t :=
  ⟨⟨by decide, by decide⟩, uninterrupted_of_no_host rfl rfl, _, rfl⟩

/-- InterruptRequestIsTheHosts, its first clause. -/
theorem witness_InterruptRequestIsTheHosts :
    ({ State.reset with intr := true } : State).intr = true ∧ ∃ t, step { State.reset with intr := true } = .next t :=
  ⟨rfl, _, rfl⟩

/-- OnlyListedRegistersAreWritten, OnlyListedRegistersAreRead, OnlyFlagWritesChangeCond, OnlyBranchReadsCond,
OnlyStoresAndPollsChangeMemory. -/
theorem witness_exec :
    (Instr.addImm .r0 .r0 1).wellFormed = true ∧ Reg.r1 ∉ readRegs (.addImm .r0 .r0 1) ∧ (Instr.addImm .r0 .r0 1).row ≠ .br ∧
    State.reset.mem.wf = true ∧ State.reset.phase = .fetch ∧ Uninterrupted State.reset ∧
    ∃ t, exec (.addImm .r0 .r0 1) State.reset = .next t :=
  ⟨rfl, by decide, by decide, rfl, rfl, uninterrupted_of_no_host rfl rfl, _, rfl⟩

/-- OnlyFlagWritesChangeCond, the case of an instruction without a flag-triggering write. -/
theorem witness_OnlyFlagWritesChangeCond : flagWrite (.jsr 2) = none ∧ ∃ t, exec (.jsr 2) State.reset = .next t :=
  ⟨rfl, _, rfl⟩

/-- PcAfterEveryInstruction, at the top of the address space. -/
theorem witness_PcAfterEveryInstruction :
    ({ State.reset with pc := 0xFFFF } : State).run = .running ∧ ({ State.reset with pc := 0xFFFF } : State).phase = .fetch ∧
    Uninterrupted { State.reset with pc := 0xFFFF } ∧ ∃ t, step { State.reset with pc := 0xFFFF } = .next t :=
  ⟨rfl, rfl, uninterrupted_of_no_host rfl rfl, _, rfl⟩

theorem witness_StepPollsAsOftenAsItReads :
    (start 0xA401).run = .running ∧ (start 0xA401).phase = .fetch ∧ QuietHost (start 0xA401) ∧
    decode (fetchWord params (start 0xA401)) = .ldi .r2 1 ∧ ∃ t, step (start 0xA401) = .next t :=
  ⟨rfl, rfl, ⟨rfl, rfl⟩, by decide, _, rfl⟩

/-- Each way to halt. -/
theorem witness_HaltingConditionsAreExhaustive :
    field (·.run) (step (start 0xF025)) = some .halted ∧ field (·.run) (step (start 0x8000)) = some .halted ∧
    field (·.run) (step (start 0xD000)) = some .halted ∧ field (·.run) (step (start 0xF026)) = some .halted ∧
    field (·.run) (step (arriving [] true (start 0x1021))) = some .halted := by decide

/-- A state whose next instruction, at `pc`, is `ST R0, #0`. -/
def storeNext (pc : Word) : State := State.withFetchWord { State.reset with pc := pc } 16 0x3000

/-- The three addresses the store can have: an ordinary cell, the data cell, the status cell. -/
theorem witness_StoreIsSeenByTheNextFetch :
    (storeNext 0x3000).run = .running ∧ (storeNext 0x3000).phase = .fetch ∧ Uninterrupted (storeNext 0x3000) ∧
    (storeNext 0x3000).mem.wf = true ∧ decode (fetchWord params (hostTurn (storeNext 0x3000))) = .st .r0 0 ∧
    (storeNext 0x3000).pc + 1 ≠ kbsrAddr ∧ (storeNext 0x3000).pc + 1 ≠ kbdrAddr ∧
    (storeNext 0xFE01).pc + 1 = kbdrAddr ∧ decode (fetchWord params (hostTurn (storeNext 0xFE01))) = .st .r0 0 ∧
    field (fun t => (hostTurn (hostTurn t)).inq) (step (storeNext 0xFE01)) = some [] ∧
    (storeNext 0xFDFF).pc + 1 = kbsrAddr ∧ decode (fetchWord params (hostTurn (storeNext 0xFDFF))) = .st .r0 0 :=
  ⟨rfl, rfl, uninterrupted_of_no_host rfl rfl, by decide, by decide, by decide, by decide, by decide, by decide, by decide,
    by decide, by decide⟩

theorem witness_GetcSkipsTheCharacterItsFetchTook :
    ((start 0xF020).setInq [0x61, 0x62]).run = .running ∧ ((start 0xF020).setInq [0x61, 0x62]).phase = .fetch ∧
    QuietHost ((start 0xF020).setInq [0x61, 0x62]) ∧ ((start 0xF020).setInq [0x61, 0x62]).mem.wf = true ∧
    decode (fetchWord params ((start 0xF020).setInq [0x61, 0x62])) = .getc ∧
    ((start 0xF020).setInq [0x61, 0x62]).inq = 0x61 :: 0x62 :: [] ∧
    QuietHost ((start 0xF020).setInq [0x61]) ∧ decode (fetchWord params ((start 0xF020).setInq [0x61])) = .getc ∧
    ((start 0xF020).setInq [0x61]).inq = [0x61] :=
  ⟨rfl, rfl, ⟨rfl, rfl⟩, by decide, by decide, rfl, ⟨rfl, rfl⟩, by decide, rfl⟩

/-- LoadPlacesTheImage: an image whose last word is at 0xFFFF (V-LOAD-7). -/
theorem witness_LoadPlacesTheImage :
    State.reset.mem.wf = true ∧ ([0xFF, 0xFF, 0x00, 0x01] : List Byte).length ≤ 65535 ∧
    (0xFF : Byte).toNat * 256 + (0xFF : Byte).toNat + ([0x00, 0x01] : List Byte).length / 2 ≤ 65536 ∧
    ([0x00, 0x01] : List Byte)[2 * 0]? = some 0x00 ∧ ([0x00, 0x01] : List Byte)[2 * 0 + 1]? = some 0x01 := by decide

theorem witness_LoadChecksTheSize :
    65535 < (List.replicate 65536 (0 : Byte)).length ∧ ∃ t, load (some [0x30, 0x00]) State.reset = .ok t :=
  ⟨by rw [List.length_replicate]; decide, _, rfl⟩

theorem witness_LoadRejectsBadImages :
    ([0xFF, 0xFF, 0x00, 0x01, 0x00, 0x02] : List Byte).length ≤ 65535 ∧
    65536 < (0xFF : Byte).toNat * 256 + (0xFF : Byte).toNat + ([0x00, 0x01, 0x00, 0x02] : List Byte).length / 2 := by decide

end Sys2Proof.Tests
end

section
/-!
The sign extension of 00_scope.md R8.
-/
namespace Sys2Proof.Machine

/-- R8 at any field width up to 16: the highest bit of the field decides whether the vacated bits are ones. -/
theorem toNat_sext {n : Nat} (hn : n ≤ 16) (v : BitVec n) :
    (sext v).toNat = if v.getLsbD (n - 1) then v.toNat + (2 ^ 16 - 2 ^ n) else v.toNat := by
  have low_bits : (v.setWidth 16).toNat = v.toNat := BitVec.toNat_setWidth_of_le hn
  rw [sext, BitVec.toNat_signExtend, low_bits, BitVec.msb_eq_getLsbD_last]
  split
  · rfl
  · exact Nat.add_zero _

/-- Settles O6: each clause is `toNat_sext` at its width; the document's two examples are evaluated. -/
theorem signExtensionRule : Obligations.SignExtensionRule := by
  unfold Obligations.SignExtensionRule
  exact ⟨toNat_sext (by decide), toNat_sext (by decide), toNat_sext (by decide), toNat_sext (by decide),
    by decide, by decide⟩

end Sys2Proof.Machine
end

section
/-!
The flag-update rule of 10_state.md R27.
-/
namespace Sys2Proof.Machine

/-- Bit 15 is the sign of a Word (R27 tests it to tell `NEG`). -/
theorem bit15_iff_le_toNat (v : Word) : v.getLsbD 15 = true ↔ 0x8000 ≤ v.toNat := by
  have sign_bit : v.getLsbD 15 = v.msb := (BitVec.msb_eq_getLsbD_last v).symm
  rw [sign_bit, BitVec.msb_eq_decide, decide_eq_true_iff]

theorem flagOf_of_bit15 {v : Word} (sign : v.getLsbD 15 = true) : flagOf v = .neg := if_pos sign

theorem flagOf_zero : flagOf 0#16 = .zero := rfl

theorem flagOf_of_ne_zero {v : Word} (sign : v.getLsbD 15 = false) (nonzero : v ≠ 0#16) : flagOf v = .pos := by
  rw [flagOf, sign, if_neg Bool.false_ne_true, if_neg nonzero]

/-- The three cases of R27 as unsigned ranges: they are exclusive and cover every Word. -/
theorem flagOf_iff_range (v : Word) :
    (flagOf v = .neg ↔ 0x8000 ≤ v.toNat) ∧ (flagOf v = .zero ↔ v.toNat = 0) ∧
    (flagOf v = .pos ↔ 1 ≤ v.toNat ∧ v.toNat ≤ 0x7FFF) := by
  have range := bit15_iff_le_toNat v
  cases sign : v.getLsbD 15 with
  | true =>
    have := range.mp sign
    simp only [flagOf_of_bit15 sign, reduceCtorEq, true_iff, false_iff]
    omega
  | false =>
    by_cases zero : v = 0#16
    · subst zero
      decide
    · have : v.toNat ≠ 0 := fun h => zero (BitVec.eq_of_toNat_eq h)
      simp only [sign, Bool.false_eq_true, false_iff] at range
      simp only [flagOf_of_ne_zero sign zero, reduceCtorEq, true_iff, false_iff]
      omega

/-- Settles O7: the flag of each case and of each range is `flagOf`'s, and `setcc` is an update of `cond` alone. -/
theorem flagUpdateRule : Obligations.FlagUpdateRule := by
  unfold Obligations.FlagUpdateRule
  intro v s
  obtain ⟨neg_iff, zero_iff, pos_iff⟩ := flagOf_iff_range v
  refine ⟨flagOf_of_bit15, fun _ zero => ?_, flagOf_of_ne_zero, neg_iff, zero_iff, pos_iff, rfl⟩
  rw [setcc_cond, zero, flagOf_zero]

end Sys2Proof.Machine
end

section
/-!
The read path of 20_memory.md R53 and the write path of R56: what a MemRead returns, by the pending input its poll finds.
-/
namespace Sys2Proof.Machine

/-- A store consumes no input: the next poll finds the same characters (R56). -/
theorem hostTurn_memWrite_inq (a v : Word) (s : State) : (hostTurn (memWrite a v s)).inq = (hostTurn s).inq := by
  rw [hostTurn_inq, hostTurn_inq, memWrite_inq, memWrite_host]

theorem kbdrAddr_ne_kbsrAddr : kbdrAddr ≠ kbsrAddr := by decide

/-- With nothing pending, only the status cell differs from what stood in memory (R52). -/
theorem memReadValue_idle (p : Params) {s : State} (canonical : s.mem.wf = true) (pending : (hostTurn s).inq = [])
    (a : Word) : memReadValue p a s = if a = kbsrAddr then 0#16 else memPeek a s := by
  rw [memReadValue, memPeek_poll p canonical, pending]

theorem memReadValue_input (p : Params) {s : State} {c : Byte} {rest : List Byte} (canonical : s.mem.wf = true)
    (pending : (hostTurn s).inq = c :: rest) (a : Word) :
    memReadValue p a s =
      if a = kbdrAddr then charWord c
      else if a = kbsrAddr then readyWord p (memPeek kbsrAddr s) else memPeek a s := by
  rw [memReadValue, memPeek_poll p canonical, pending]

/-- The poll of a MemRead leaves an ordinary cell as it was (R53). -/
theorem memReadValue_ordinary (p : Params) {s : State} {a : Word} (canonical : s.mem.wf = true) (status : a ≠ kbsrAddr)
    (data : a ≠ kbdrAddr) : memReadValue p a s = memPeek a s := by
  cases pending : (hostTurn s).inq with
  | nil => rw [memReadValue_idle p canonical pending, if_neg status]
  | cons c rest => rw [memReadValue_input p canonical pending, if_neg data, if_neg status]

/-- No MemRead sees what stood in the status cell: its poll has overwritten it, with input pending (D5) or without. -/
theorem memReadValue_congr {s t : State} (hs : s.mem.wf = true) (ht : t.mem.wf = true)
    (queue : (hostTurn s).inq = (hostTurn t).inq) (cells : SameCells [kbsrAddr] t s) (b : Word) :
    memReadValue params b s = memReadValue params b t := by
  have ordinary (h : b ≠ kbsrAddr) : memPeek b s = memPeek b t := cells b (List.mem_singleton.not.mpr h)
  cases pending : (hostTurn t).inq with
  | nil =>
    rw [memReadValue_idle params hs (queue.trans pending), memReadValue_idle params ht pending]
    split_ifs with status
    · rfl
    · exact ordinary status
  | cons c rest =>
    rw [memReadValue_input params hs (queue.trans pending), memReadValue_input params ht pending]
    split_ifs with data status
    · rfl
    · rfl
    · exact ordinary status

/-- What a store left in the status cell is never read (R56). -/
theorem memReadValue_memWrite_kbsrAddr {s : State} (canonical : s.mem.wf = true) (v b : Word) :
    memReadValue params b (memWrite kbsrAddr v s) = memReadValue params b s := by
  have cells : SameCells [kbsrAddr] s (memWrite kbsrAddr v s) := fun a other => by
    rw [memPeek_memWrite canonical, if_neg (List.mem_singleton.not.mp other)]
  exact memReadValue_congr (memWrite_wf _ _ canonical) canonical (hostTurn_memWrite_inq _ _ s) cells b

/-- What a store left in the data cell is read as long as the polls find nothing (R52, R56). -/
theorem memReadValue_memWrite_kbdrAddr (p : Params) {s : State} (canonical : s.mem.wf = true)
    (pending : (hostTurn s).inq = []) (v : Word) : memReadValue p kbdrAddr (memWrite kbdrAddr v s) = v := by
  have nothing_pending := (hostTurn_memWrite_inq kbdrAddr v s).trans pending
  rw [memReadValue_idle p (memWrite_wf _ _ canonical) nothing_pending, if_neg kbdrAddr_ne_kbsrAddr,
    memPeek_memWrite canonical, if_pos rfl]

/-- Settles O9: read after write at every cell, an update of `mem` alone, and the two device cells as a MemRead finds them. -/
theorem memWriteStoresOneCell : Obligations.MemWriteStoresOneCell := by
  unfold Obligations.MemWriteStoresOneCell
  intro s a v canonical
  refine ⟨fun b => memPeek_memWrite canonical a b v, rfl, fun v' b => ?_,
    fun pending => memReadValue_memWrite_kbdrAddr params canonical pending v⟩
  rw [memReadValue_memWrite_kbsrAddr canonical, memReadValue_memWrite_kbsrAddr canonical]

/-- Settles O12: a MemRead is defined as the poll and then the cell; `memReadValue_ordinary` gives the ordinary cells. -/
theorem memReadPollsAtEveryAddress : Obligations.MemReadPollsAtEveryAddress := by
  unfold Obligations.MemReadPollsAtEveryAddress
  intro s a canonical
  exact ⟨rfl, rfl, memReadValue_ordinary params canonical⟩

end Sys2Proof.Machine
end

section
/-!
The fetch phase of 60_exceptions.md R171: what it leaves behind for execute.
-/
namespace Sys2Proof.Machine

/-- R24: the increment of `pc` wraps from 0xFFFF to 0x0000. -/
theorem fetchState_pc_toNat (p : Params) (s : State) : (fetchState p s).pc.toNat = (s.pc.toNat + 1) % 65536 :=
  BitVec.toNat_add s.pc 1

/-- Apart from its increment of `pc`, the fetch is its poll (R171, R53). -/
theorem fetchState_with_pc (p : Params) (s : State) : { fetchState p s with pc := s.pc } = poll p s := by
  rw [← poll_pc p s]
  rfl

/-- Settles O38: the fetched state is the witness; the host's turn before the step leaves `pc`, where the fetch reads. -/
theorem stepRunsTheDecodedInstruction : Obligations.StepRunsTheDecodedInstruction := by
  unfold Obligations.StepRunsTheDecodedInstruction
  intro s running between_steps uninterrupted
  have same_pc : s.pc = (hostTurn s).pc := (hostTurn_pc s).symm
  refine ⟨fetchState params (hostTurn s), step_fetch running between_steps uninterrupted |>.trans ?_, ?_, ?_⟩
  · rw [same_pc, fetchWord, memReadValue]
  · rw [same_pc, fetchState_pc_toNat]
  · rw [same_pc, fetchState_with_pc]

end Sys2Proof.Machine
end

section
/-!
The size check of the load, 70_reset_and_hazards.md R204.
-/
namespace Sys2Proof.Machine

theorem load_none (s : State) : load none s = .error .imageInvalid := rfl

theorem load_empty (s : State) : load (some []) s = .error .imageInvalid := rfl

theorem load_of_too_long {bytes : List Byte} (too_long : imageMaxBytes < bytes.length) (s : State) :
    load (some bytes) s = .error .imageInvalid :=
  if_pos (.inr too_long)

theorem length_le_of_load_ok {bytes : List Byte} {s t : State} (accepted : load (some bytes) s = .ok t) :
    bytes.length ≤ imageMaxBytes := by
  by_contra too_long
  rw [load_of_too_long (Nat.lt_of_not_le too_long)] at accepted
  contradiction

/-- Settles O59: the last clause halves the size bound of an accepted image, without the two bytes of its origin. -/
theorem loadChecksTheSize : Obligations.LoadChecksTheSize := by
  unfold Obligations.LoadChecksTheSize
  refine ⟨load_none, load_empty, fun bytes s too_long => load_of_too_long too_long s, fun bytes s t accepted => ?_⟩
  have size : bytes.length ≤ 65535 := length_le_of_load_ok accepted
  omega

end Sys2Proof.Machine
end

section
/-!
The formats of 30_encoding.md R82: a word is an OR of placed fields, and a field read from it is the one placed there.
-/
namespace Sys2Proof

/-! ### Fields and places -/

@[simp] theorem getElem_place {n : Nat} (lo : Nat) (field : BitVec n) (i : Nat) (hi : i < 16) :
    (place lo field)[i] = (decide (lo ≤ i) && field.getLsbD (i - lo)) := by
  have : i - lo < 16 := by omega
  by_cases low : i < lo
  · simp [place, low]
  · simp [place, low, Nat.le_of_not_lt low, BitVec.getElem_setWidth]

/-- A field is read back from its place. -/
@[simp] theorem extractLsb'_place {n : Nat} (lo : Nat) (fits : lo + n ≤ 16) (field : BitVec n) :
    (place lo field).extractLsb' lo n = field := by
  ext i hi
  have : lo + i < 16 := by omega
  simp [getElem_place, this, hi]

/-- No bit of a field is read at places beside it. -/
@[simp] theorem extractLsb'_place_of_disjoint {n : Nat} (lo start len : Nat) (field : BitVec n) (fits : start + len ≤ 16)
    (disjoint : start + len ≤ lo ∨ lo + n ≤ start) : (place lo field).extractLsb' start len = 0#len := by
  ext i hi
  have inside : start + i < 16 := by omega
  have outside : lo ≤ start + i → n ≤ start + i - lo := by omega
  simpa [getElem_place, inside] using fun h => BitVec.getLsbD_of_ge field _ (outside h)

/-- A mask with no bit where the field is placed clears it. -/
theorem place_and_eq_zero {n : Nat} (lo : Nat) (field : BitVec n) (mask : Word) (clear : mask.extractLsb' lo n = 0#n) :
    place lo field &&& mask = 0#16 := by
  ext i hi
  suffices lo ≤ i → field.getLsbD (i - lo) = true → mask[i] = false by simpa [getElem_place] using this
  intro low bit
  have inside : i - lo < n := BitVec.lt_of_getLsbD bit
  have := congrArg (·.getLsbD (i - lo)) clear
  simpa [inside, Nat.add_sub_cancel' low, hi] using this

/-- A field read from a word and placed again is the word masked to it. -/
theorem place_extractLsb' (lo n : Nat) (w : Word) :
    place lo (w.extractLsb' lo n) = w &&& place lo (BitVec.allOnes n) := by
  ext i hi
  by_cases low : lo ≤ i
  · simp [getElem_place, low, hi, Nat.add_sub_cancel' low, Bool.and_comm]
  · simp [getElem_place, low]

/-- One bit, read as a Bool and as a field. -/
theorem extractLsb'_one (w : Word) (i : Nat) : w.extractLsb' i 1 = BitVec.ofBool (w.getLsbD i) := by
  ext j hj
  obtain rfl : j = 0 := by omega
  simp

/-! ### Registers, opcodes, trap codes -/

@[simp] theorem Reg.ofBits_toBits (r : Reg) : Reg.ofBits r.toBits = r := by cases r <;> rfl

@[simp] theorem Reg.toBits_ofBits (b : BitVec 3) : (Reg.ofBits b).toBits = b := by
  revert b
  decide

@[simp] theorem Opcode.ofBits_toBits (op : Opcode) : Opcode.ofBits op.toBits = op := by cases op <;> rfl

@[simp] theorem Opcode.toBits_ofBits (b : BitVec 4) : (Opcode.ofBits b).toBits = b := by
  revert b
  decide

theorem decodeTrap_of_undefined {code : Byte} (undefined : Config.isDefinedTrap code = false) :
    decodeTrap code = .trap code := by
  simp only [Config.isDefinedTrap, Bool.or_eq_false_iff, beq_eq_false_iff_ne] at undefined
  simp [decodeTrap, undefined]

theorem encode_decodeTrap (code : Byte) : encode (decodeTrap code) = packTrap code := by
  unfold decodeTrap
  split_ifs <;> simp [encode, *]

theorem row_decodeTrap (code : Byte) : (decodeTrap code).row = .trap := by
  unfold decodeTrap
  split_ifs <;> rfl

/-! ### The fields of the formats (R81, R82) -/

@[simp] theorem fields_packRRR (op : Opcode) (dr sr1 sr2 : Reg) :
    opcodeField (packRRR op dr sr1 sr2) = op.toBits ∧ drField (packRRR op dr sr1 sr2) = dr ∧
    sr1Field (packRRR op dr sr1 sr2) = sr1 ∧ sr2Field (packRRR op dr sr1 sr2) = sr2 ∧
    (packRRR op dr sr1 sr2)[5] = false := by
  simp [packRRR, BitVec.extractLsb'_or, opcodeField, drField, sr1Field, sr2Field]

@[simp] theorem fields_packRRI (op : Opcode) (dr sr1 : Reg) (imm5 : BitVec 5) :
    opcodeField (packRRI op dr sr1 imm5) = op.toBits ∧ drField (packRRI op dr sr1 imm5) = dr ∧
    sr1Field (packRRI op dr sr1 imm5) = sr1 ∧ imm5Field (packRRI op dr sr1 imm5) = imm5 ∧
    (packRRI op dr sr1 imm5)[5] = true := by
  simp [packRRI, BitVec.extractLsb'_or, opcodeField, drField, sr1Field, imm5Field]

@[simp] theorem fields_packRR (op : Opcode) (dr sr1 : Reg) :
    opcodeField (packRR op dr sr1) = op.toBits ∧ drField (packRR op dr sr1) = dr ∧
    sr1Field (packRR op dr sr1) = sr1 := by
  simp [packRR, BitVec.extractLsb'_or, opcodeField, drField, sr1Field]

@[simp] theorem fields_packBase (op : Opcode) (baseR : Reg) :
    opcodeField (packBase op baseR) = op.toBits ∧ sr1Field (packBase op baseR) = baseR ∧
    (packBase op baseR)[11] = false := by
  simp [packBase, BitVec.extractLsb'_or, opcodeField, sr1Field]

@[simp] theorem fields_packBaseOff (op : Opcode) (dr baseR : Reg) (offset6 : BitVec 6) :
    opcodeField (packBaseOff op dr baseR offset6) = op.toBits ∧ drField (packBaseOff op dr baseR offset6) = dr ∧
    sr1Field (packBaseOff op dr baseR offset6) = baseR ∧ offset6Field (packBaseOff op dr baseR offset6) = offset6 := by
  simp [packBaseOff, BitVec.extractLsb'_or, opcodeField, drField, sr1Field, offset6Field]

@[simp] theorem fields_packPcRel9 (op : Opcode) (dr : Reg) (offset9 : BitVec 9) :
    opcodeField (packPcRel9 op dr offset9) = op.toBits ∧ drField (packPcRel9 op dr offset9) = dr ∧
    offset9Field (packPcRel9 op dr offset9) = offset9 := by
  simp [packPcRel9, BitVec.extractLsb'_or, opcodeField, drField, offset9Field]

@[simp] theorem fields_packBranch (n z p : Bool) (offset9 : BitVec 9) :
    opcodeField (packBranch n z p offset9) = Opcode.br.toBits ∧ (packBranch n z p offset9)[11] = n ∧
    (packBranch n z p offset9)[10] = z ∧ (packBranch n z p offset9)[9] = p ∧
    offset9Field (packBranch n z p offset9) = offset9 := by
  simp [packBranch, BitVec.extractLsb'_or, opcodeField, offset9Field]

@[simp] theorem fields_packJsr11 (offset11 : BitVec 11) :
    opcodeField (packJsr11 offset11) = Opcode.jsr.toBits ∧ (packJsr11 offset11)[11] = true ∧
    offset11Field (packJsr11 offset11) = offset11 := by
  simp [packJsr11, BitVec.extractLsb'_or, opcodeField, offset11Field]

@[simp] theorem fields_packTrap (code : Byte) :
    opcodeField (packTrap code) = Opcode.trap.toBits ∧ trapField (packTrap code) = code := by
  simp [packTrap, BitVec.extractLsb'_or, opcodeField, trapField]

@[simp] theorem opcodeField_packNone (op : Opcode) : opcodeField (packNone op) = op.toBits := by
  simp [packNone, opcodeField]

/-- The decoder reads from each format the fields that the encoder placed there; a TRAP word decodes to `trap` unless its
code is one of the six. -/
theorem decode_encode {i : Instr} (wellFormed : i.wellFormed = true) : decode (encode i) = i := by
  cases i with
  | trap code =>
    have undefined : Config.isDefinedTrap code = false := Bool.not_eq_true' _ |>.mp wellFormed
    simp [decode, encode, decodeTrap_of_undefined undefined]
  | getc | out | puts | inEcho | putsp | halt => decide
  | _ => simp [decode, encode]

/-- Settles O1: `decode_encode`. -/
theorem decodeEncodeRoundTrip : Obligations.DecodeEncodeRoundTrip := by
  unfold Obligations.DecodeEncodeRoundTrip
  exact fun _ => decode_encode

/-! ### Packing the fields of a word gives back its covered bits (R87) -/

/-- The bits that the fields of a row's instructions cover (R87). -/
def Row.covered : Row → Word
  | .addReg | .andReg => 0xFFE7
  | .jsrr => 0xF9C0
  | .notReg => 0xFFC0
  | .jmp => 0xF1C0
  | .reserved8 | .reserved13 => 0xF000
  | .trap => 0xF0FF
  | _ => 0xFFFF

theorem coveredBits_eq (i : Instr) : coveredBits i = i.row.covered := by cases i <;> rfl

/-- A set mode bit, as the field the formats place. -/
theorem modeBit_of_set {w : Word} {i : Nat} (set : w.getLsbD i = true) : (1 : BitVec 1) = w.extractLsb' i 1 := by
  rw [extractLsb'_one, set]
  rfl

/-- A mask may take in a clear mode bit. -/
theorem and_modeBit_of_clear {w : Word} {i : Nat} (clear : w.getLsbD i = false) (mask : Word) :
    w &&& (mask ||| place i (BitVec.allOnes 1)) = w &&& mask := by
  rw [BitVec.and_or_distrib_left, ← place_extractLsb', extractLsb'_one, clear]
  simp [place]

section
variable {w : Word} {op : Opcode} (opcode : opcodeField w = op.toBits)
include opcode

theorem packRRR_fields (register_form : w.getLsbD 5 = false) :
    packRRR op (drField w) (sr1Field w) (sr2Field w) = w &&& 0xFFE7 := by
  simp only [packRRR, ← opcode, opcodeField, drField, sr1Field, sr2Field, Reg.toBits_ofBits, place_extractLsb',
    ← BitVec.and_or_distrib_left]
  exact (and_modeBit_of_clear register_form 0xFFC7).symm

theorem packRRI_fields (immediate_form : w.getLsbD 5 = true) :
    packRRI op (drField w) (sr1Field w) (imm5Field w) = w &&& 0xFFFF := by
  simp only [packRRI, ← opcode, opcodeField, drField, sr1Field, imm5Field, Reg.toBits_ofBits,
    modeBit_of_set immediate_form, place_extractLsb', ← BitVec.and_or_distrib_left]
  rfl

theorem packRR_fields : packRR op (drField w) (sr1Field w) = w &&& 0xFFC0 := by
  simp only [packRR, ← opcode, opcodeField, drField, sr1Field, Reg.toBits_ofBits, place_extractLsb',
    ← BitVec.and_or_distrib_left]
  rfl

theorem packBase_fields : packBase op (sr1Field w) = w &&& 0xF1C0 := by
  simp only [packBase, ← opcode, opcodeField, sr1Field, Reg.toBits_ofBits, place_extractLsb',
    ← BitVec.and_or_distrib_left]
  rfl

theorem packBaseOff_fields : packBaseOff op (drField w) (sr1Field w) (offset6Field w) = w &&& 0xFFFF := by
  simp only [packBaseOff, ← opcode, opcodeField, drField, sr1Field, offset6Field, Reg.toBits_ofBits, place_extractLsb',
    ← BitVec.and_or_distrib_left]
  rfl

theorem packPcRel9_fields : packPcRel9 op (drField w) (offset9Field w) = w &&& 0xFFFF := by
  simp only [packPcRel9, ← opcode, opcodeField, drField, offset9Field, Reg.toBits_ofBits, place_extractLsb',
    ← BitVec.and_or_distrib_left]
  rfl

theorem packNone_fields : packNone op = w &&& 0xF000 := by
  simp only [packNone, ← opcode, opcodeField, place_extractLsb']
  rfl

end

theorem packBranch_fields {w : Word} (opcode : opcodeField w = Opcode.br.toBits) :
    packBranch (w.getLsbD 11) (w.getLsbD 10) (w.getLsbD 9) (offset9Field w) = w &&& 0xFFFF := by
  simp only [packBranch, ← opcode, opcodeField, offset9Field, ← extractLsb'_one, place_extractLsb',
    ← BitVec.and_or_distrib_left]
  rfl

theorem packJsr11_fields {w : Word} (opcode : opcodeField w = Opcode.jsr.toBits) (jsr_form : w.getLsbD 11 = true) :
    packJsr11 (offset11Field w) = w &&& 0xFFFF := by
  simp only [packJsr11, ← opcode, opcodeField, offset11Field, modeBit_of_set jsr_form, place_extractLsb',
    ← BitVec.and_or_distrib_left]
  rfl

theorem packTrap_fields {w : Word} (opcode : opcodeField w = Opcode.trap.toBits) :
    packTrap (trapField w) = w &&& 0xF0FF := by
  simp only [packTrap, ← opcode, opcodeField, trapField, place_extractLsb', ← BitVec.and_or_distrib_left]
  rfl

/-- A decoded word encodes to itself with its ignored bits zero (R87). -/
theorem encode_decode (w : Word) : encode (decode w) = w &&& coveredBits (decode w) := by
  have opcode (op : Opcode) (h : Opcode.ofBits (opcodeField w) = op) : opcodeField w = op.toBits := by simp [← h]
  unfold decode
  split
  case h_1 h => exact packBranch_fields (opcode _ h)
  case h_2 h =>
    split_ifs with mode
    · exact packRRI_fields (opcode _ h) mode
    · exact packRRR_fields (opcode _ h) (Bool.not_eq_true _ |>.mp mode)
  case h_3 h => exact packPcRel9_fields (opcode _ h)
  case h_4 h => exact packPcRel9_fields (opcode _ h)
  case h_5 h =>
    split_ifs with mode
    · exact packJsr11_fields (opcode _ h) mode
    · exact (packBase_fields (opcode _ h)).trans
        (and_modeBit_of_clear (Bool.not_eq_true _ |>.mp mode) 0xF1C0).symm
  case h_6 h =>
    split_ifs with mode
    · exact packRRI_fields (opcode _ h) mode
    · exact packRRR_fields (opcode _ h) (Bool.not_eq_true _ |>.mp mode)
  case h_7 h => exact packBaseOff_fields (opcode _ h)
  case h_8 h => exact packBaseOff_fields (opcode _ h)
  case h_9 h => exact packNone_fields (opcode _ h)
  case h_10 h => exact packRR_fields (opcode _ h)
  case h_11 h => exact packPcRel9_fields (opcode _ h)
  case h_12 h => exact packPcRel9_fields (opcode _ h)
  case h_13 h => exact packBase_fields (opcode _ h)
  case h_14 h => exact packNone_fields (opcode _ h)
  case h_15 h => exact packPcRel9_fields (opcode _ h)
  case h_16 h => rw [encode_decodeTrap, coveredBits_eq, row_decodeTrap, packTrap_fields (opcode _ h), Row.covered]

/-! ### The rows (R91) -/

theorem covered_and_mask (r : Row) : r.covered &&& r.mask = r.mask := by cases r <;> rfl

/-- An encoded instruction matches its row: the row's mask clears its operands and leaves the opcode and the mode bit. -/
theorem encode_and_mask (i : Instr) : encode i &&& i.row.mask = i.row.pattern := by
  cases i
  all_goals
    simp [encode, packRRR, packRRI, packRR, packBase, packBaseOff, packPcRel9, packBranch, packJsr11, packTrap, packNone,
      BitVec.and_or_distrib_right, place_and_eq_zero, Instr.row, Row.mask, Row.pattern]
    rfl

/-- No word matches two rows. -/
theorem Row.pattern_inj {r r' : Row} {w : Word} (h : w &&& r.mask = r.pattern) (h' : w &&& r'.mask = r'.pattern) :
    r = r' := by
  have : r.pattern &&& r'.mask = r'.pattern &&& r.mask := by
    rw [← h, ← h', BitVec.and_assoc, BitVec.and_assoc, BitVec.and_comm r.mask]
  clear h h'
  revert this
  cases r <;> cases r' <;> decide

/-- A word matches the row of the instruction it decodes to. -/
theorem decode_matches_row (w : Word) : w &&& (decode w).row.mask = (decode w).row.pattern := by
  rw [← encode_and_mask, encode_decode, coveredBits_eq, BitVec.and_assoc, covered_and_mask]

/-- A word matches its own instruction's row, and no second row. -/
theorem matches_row_iff (w : Word) (r : Row) : w &&& r.mask = r.pattern ↔ (decode w).row = r := by
  constructor
  · exact Row.pattern_inj (decode_matches_row w)
  · rintro rfl
    exact decode_matches_row w

/-- Settles O3: `matches_row_iff`. -/
theorem rowsPartitionTheWords : Obligations.RowsPartitionTheWords := by
  unfold Obligations.RowsPartitionTheWords
  exact matches_row_iff

/-- A word decodes to an instruction exactly when its covered bits are those of the instruction's word: they fix the row, the
row fixes which bits are covered, and so both have the same word. -/
theorem decode_eq_iff {i : Instr} (wellFormed : i.wellFormed = true) (w : Word) :
    decode w = i ↔ w &&& coveredBits i = encode i := by
  constructor
  · rintro rfl
    exact (encode_decode w).symm
  · intro covered
    have same_row : (decode w).row = i.row := by
      rw [← matches_row_iff, ← encode_and_mask, ← covered, coveredBits_eq, BitVec.and_assoc, covered_and_mask]
    have same_word : encode (decode w) = encode i := by
      rw [encode_decode, coveredBits_eq, same_row, ← coveredBits_eq, covered]
    rw [← decode_encode (Machine.decode_wellFormed w), same_word, decode_encode wellFormed]

/-- Settles O2: the last clause is `decode_eq_iff`, for both words have the covered bits of one instruction. -/
theorem ignoredBitsDoNotDecode : Obligations.IgnoredBitsDoNotDecode := by
  unfold Obligations.IgnoredBitsDoNotDecode
  intro w
  have wellFormed := Machine.decode_wellFormed w
  refine ⟨wellFormed, encode_decode w, fun w' agree => ?_⟩
  rw [decode_eq_iff wellFormed, agree, encode_decode]

/-- Settles O4: the fourteen words are evaluated. -/
theorem specWordsDecode : Obligations.SpecWordsDecode := by
  unfold Obligations.SpecWordsDecode
  decide

/-! ### BR that is never taken, and TRAP -/

/-- The words below 0x0200 are BR with no condition bit (R94). -/
theorem decode_of_lt {w : Word} (small : w.toNat < 0x200) : decode w = .br false false false (offset9Field w) := by
  have clear (i : Nat) (hi : 9 ≤ i) : w.getLsbD i = false :=
    Nat.testBit_lt_two_pow (Nat.lt_of_lt_of_le small (Nat.pow_le_pow_right Nat.two_pos hi))
  have opcode : opcodeField w = Opcode.br.toBits := by
    ext i hi
    simp [opcodeField, clear (12 + i) (by omega), Opcode.toBits]
  rw [decode, opcode, clear 11 (by decide), clear 10 (by decide), clear 9 (by decide)]
  rfl

/-- Settles O5: with no condition bit BR is not taken, whatever the flag. -/
theorem noOperationWords : Obligations.NoOperationWords := by
  unfold Obligations.NoOperationWords
  intro w s small
  have not_taken : Machine.branchTaken false false false s.cond = false := by
    rw [← Bool.not_eq_true, Machine.branchTaken_iff]
    simp
  rw [decode_of_lt small]
  show Machine.execBr false false false (offset9Field w) s = .next s
  rw [Machine.execBr, not_taken]
  rfl

theorem trapField_eq_iff (w : Word) (code : Byte) : trapField w = code ↔ w.toNat % 256 = code.toNat := by
  rw [← BitVec.toNat_inj, trapField, BitVec.extractLsb'_toNat]
  rfl

/-- The covered bits of a TRAP word are its opcode and its code. -/
theorem and_eq_packTrap_iff (w : Word) (code : Byte) :
    w &&& 0xF0FF = packTrap code ↔ w &&& 0xF000 = 0xF000 ∧ trapField w = code := by
  have code_covered : trapField (w &&& 0xF0FF) = trapField w := by
    rw [trapField, trapField, BitVec.extractLsb'_and]
    exact BitVec.and_allOnes
  constructor
  · intro covered
    refine ⟨?_, ?_⟩
    · have : w &&& 0xF0FF &&& 0xF000 = 0xF000 := covered ▸ encode_and_mask (.trap code)
      rwa [BitVec.and_assoc] at this
    · rw [← code_covered, covered, (fields_packTrap code).2]
  · rintro ⟨opcode, rfl⟩
    calc w &&& 0xF0FF = w &&& 0xF000 ||| w &&& 0xFF := BitVec.and_or_distrib_left (y := 0xF000) (z := 0xFF)
      _ = 0xF000 ||| place 0 (trapField w) := by rw [opcode, trapField, place_extractLsb']; rfl
      _ = packTrap (trapField w) := rfl

theorem undefinedTrap_iff (code : Byte) :
    Config.isDefinedTrap code = false ↔ code.toNat < 0x20 ∨ 0x25 < code.toNat := by
  revert code
  decide

theorem decode_eq_trap_iff (w : Word) (code : Byte) : decode w = .trap code ↔
    w &&& 0xF000 = 0xF000 ∧ w.toNat % 256 = code.toNat ∧ (code.toNat < 0x20 ∨ 0x25 < code.toNat) := by
  rw [← trapField_eq_iff, ← and_assoc, ← and_eq_packTrap_iff, ← undefinedTrap_iff, ← Bool.not_eq_true']
  constructor
  · intro decoded
    have wellFormed : (Instr.trap code).wellFormed = true := decoded ▸ Machine.decode_wellFormed w
    exact ⟨(decode_eq_iff wellFormed w).mp decoded, wellFormed⟩
  · rintro ⟨covered, wellFormed⟩
    exact (decode_eq_iff (i := .trap code) wellFormed w).mpr covered

/-- Settles O36: for the six routines the equivalence is `decode_eq_iff` at the routine's word; an ill-formed term is
dispatched to the routine by `execTrap`. -/
theorem trapDispatchesOnItsCode : Obligations.TrapDispatchesOnItsCode := by
  unfold Obligations.TrapDispatchesOnItsCode
  refine ⟨fun w => ⟨?_, ?_, ?_, ?_, ?_, ?_, decode_eq_trap_iff w⟩, fun s => ⟨rfl, rfl, rfl, rfl, rfl, rfl⟩⟩
  all_goals exact decode_eq_iff rfl w

end Sys2Proof
end

section
/-!
The ill-formed terms `trap 0x20` to `trap 0x25` (log entry 19): each runs as the routine its code has, so that a rule over all
terms follows from the rule over the well-formed ones.
-/
namespace Sys2Proof.Machine

/-- The well-formed instruction that a term runs as (43_trap.md R140). -/
def resolved : Instr → Instr
  | .trap code => decodeTrap code
  | i => i

theorem resolved_wellFormed (i : Instr) : (resolved i).wellFormed = true := by
  cases i with
  | trap code => exact decodeTrap_wellFormed code
  | _ => rfl

theorem exec_resolved (i : Instr) (s : State) : exec (resolved i) s = exec i s := by
  cases i with
  | trap code =>
    simp only [resolved, decodeTrap]
    split_ifs <;> subst_vars <;> rfl
  | _ => rfl

theorem row_resolved (i : Instr) : (resolved i).row = i.row := by
  cases i with
  | trap code => exact row_decodeTrap code
  | _ => rfl

theorem pollCount_resolved (i : Instr) : pollCount (resolved i) = pollCount i := by
  cases i with
  | trap code =>
    simp only [resolved, decodeTrap]
    split_ifs <;> rfl
  | _ => rfl

theorem storedCells_resolved (i : Instr) (s : State) : storedCells (resolved i) s = storedCells i s := by
  cases i with
  | trap code =>
    simp only [resolved, decodeTrap]
    split_ifs <;> rfl
  | _ => rfl

end Sys2Proof.Machine
end

section
/-!
Noninterference. A part of the state is unseen when two states that differ in it alone are alike to every operation of the
machine. What an instruction does from two such states is then said once (`Unseen.exec`), and the three statements about
registers (10_state.md R22), COND (R28) and the streams (R34, R35) are three instances.
-/
namespace Sys2Proof.Machine

/-- States related by `R` show the operations the same queue, request, `pc` and memory, and every operation keeps `R`. -/
structure Unseen (R : State → State → Prop) : Prop where
  inq {s s' : State} : R s s' → s'.inq = s.inq
  intr {s s' : State} : R s s' → s'.intr = s.intr
  pc {s s' : State} : R s s' → s'.pc = s.pc
  memPeek {s s' : State} (a : Word) : R s s' → memPeek a s' = memPeek a s
  hostTurn {s s' : State} : R s s' → R (hostTurn s) (hostTurn s')
  setInq {s s' : State} (q : List Byte) : R s s' → R (s.setInq q) (s'.setInq q)
  setPhase {s s' : State} (ph : Phase) : R s s' → R (s.setPhase ph) (s'.setPhase ph)
  setPc {s s' : State} (a : Word) : R s s' → R (s.setPc a) (s'.setPc a)
  setReg {s s' : State} (r : Reg) (v : Word) : R s s' → R (s.setReg r v) (s'.setReg r v)
  setcc {s s' : State} (v : Word) : R s s' → R (setcc v s) (setcc v s')
  memWrite {s s' : State} (a v : Word) : R s s' → R (memWrite a v s) (memWrite a v s')
  writeChar {s s' : State} (b : Byte) : R s s' → R (writeChar b s) (writeChar b s')
  stop {s s' : State} (e : Diag) : R s s' → R (setHalted (emitDiag e s)) (setHalted (emitDiag e s'))
  interruptHalt {s s' : State} : R s s' → R (interruptHalt s) (interruptHalt s')

/-- Where the first outcome is a next state, the second is one too, and the two are related. -/
def Answers (R : State → State → Prop) (x y : Result) : Prop := ∀ t, x = .next t → ∃ t', y = .next t' ∧ R t t'

theorem answers_next {R : State → State → Prop} {t t' : State} (h : R t t') : Answers R (.next t) (.next t') :=
  fun _ e => ⟨t', rfl, Host.Outcome.next.inj e ▸ h⟩

/-- The same kind of result of a ReadChar, from related states. -/
inductive ReadResult.Alike (R : State → State → Prop) : ReadResult → ReadResult → Prop
  | got (c : Byte) {s s' : State} (h : R s s') : Alike R (.got c s) (.got c s')
  | waiting {s s' : State} (h : R s s') : Alike R (.waiting s) (.waiting s')
  | interrupted {s s' : State} (h : R s s') : Alike R (.interrupted s) (.interrupted s')

/-- The same kind of end of a sequence of WriteChar calls. -/
inductive Printed.Alike (R : State → State → Prop) : Printed → Printed → Prop
  | done {s s' : State} (h : R s s') : Alike R (.done s) (.done s')
  | interrupted {s s' : State} (h : R s s') : Alike R (.interrupted s) (.interrupted s')

/-- The same kind of end of a stretch of a scan, at the same address. -/
inductive Scan.Alike (R : State → State → Prop) : Scan → Scan → Prop
  | ended {s s' : State} (h : R s s') : Alike R (.ended s) (.ended s')
  | interrupted {s s' : State} (h : R s s') : Alike R (.interrupted s) (.interrupted s')
  | unfinished (a : Word) {s s' : State} (h : R s s') : Alike R (.unfinished a s) (.unfinished a s')
  | pastEnd : Alike R .pastEnd .pastEnd

namespace Unseen

section
variable {R : State → State → Prop} (hR : Unseen R) {s s' : State}
include hR

/-! ### The shared operations -/

theorem writeResult (dr : Reg) (v : Word) (h : R s s') : R (writeResult dr v s) (writeResult dr v s') :=
  hR.setcc v (hR.setReg dr v h)

theorem storeChar (c : Byte) (h : R s s') : R (storeChar c s) (storeChar c s') :=
  hR.setPhase .fetch (hR.writeResult _ _ h)

theorem poll (p : Params) (h : R s s') : R (poll p s) (poll p s') := by
  have turn := hR.hostTurn h
  have inq := hR.inq turn
  cases pending : (Machine.hostTurn s).inq with
  | nil =>
    rw [poll_idle pending, poll_idle (inq.trans pending)]
    exact hR.memWrite _ _ turn
  | cons c rest =>
    rw [poll_input pending, poll_input (inq.trans pending), hR.memPeek _ turn]
    exact hR.setInq _ (hR.memWrite _ _ (hR.memWrite _ _ turn))

theorem readChar (h : R s s') : ReadResult.Alike R (readChar s) (readChar s') := by
  have turn := hR.hostTurn h
  have inq := hR.inq turn
  have intr := hR.intr turn
  rcases readChar_cases s with ⟨c, rest, pending, e⟩ | ⟨pending, request, e⟩ | ⟨pending, request, e⟩
  · rw [e, readChar_got (inq.trans pending)]
    exact .got c (hR.setInq rest turn)
  · rw [e, readChar_waiting (inq.trans pending) (intr.trans request)]
    exact .waiting turn
  · rw [e, readChar_interrupted (inq.trans pending) (intr.trans request)]
    exact .interrupted turn

theorem writeNext (first : Bool) (b : Byte) (h : R s s') :
    Printed.Alike R (writeNext first b s) (writeNext first b s') := by
  have turn := hR.hostTurn h
  unfold Machine.writeNext
  rw [hR.intr turn]
  split_ifs
  · exact .done (hR.writeChar b h)
  · exact .interrupted turn
  · exact .done (hR.writeChar b turn)

theorem printChars (first : Bool) (bs : List Byte) (h : R s s') :
    Printed.Alike R (printChars first bs s) (printChars first bs s') := by
  induction bs generalizing first s s' with
  | nil =>
    rw [printChars_nil, printChars_nil]
    exact .done h
  | cons b bs ih =>
    unfold Machine.printChars
    match Machine.writeNext first b s, Machine.writeNext first b s', hR.writeNext first b h with
    | _, _, .done h => exact ih false h
    | _, _, .interrupted h => exact .interrupted h

theorem stringLoop (chars : Word → List Byte) (n : Nat) (first : Bool) (a : Word) (h : R s s') :
    Scan.Alike R (stringLoop params chars n first a s) (stringLoop params chars n first a s') := by
  induction n generalizing first a s s' with
  | zero => exact .unfinished a h
  | succ n ih =>
    simp only [Machine.stringLoop, scanValue_params, scanState_params, scanNext_params, hR.memPeek a h]
    split_ifs
    · exact .ended h
    · match Machine.printChars first _ s, Machine.printChars first _ s', hR.printChars first (chars (Machine.memPeek a s)) h with
      | _, _, .done h => exact ih false (a + 1) h
      | _, _, .interrupted h => exact .interrupted h

/-! ### The routines -/

theorem scan (goOn : Word → Phase) (chars : Word → List Byte) (n : Nat) (first : Bool) (a : Word) (h : R s s') :
    Answers R (finishScan goOn (Machine.stringLoop params chars n first a s))
      (finishScan goOn (Machine.stringLoop params chars n first a s')) := by
  match Machine.stringLoop params chars n first a s, Machine.stringLoop params chars n first a s',
    hR.stringLoop chars n first a h with
  | _, _, .ended h => exact answers_next (hR.setPhase _ h)
  | _, _, .interrupted h => exact answers_next (hR.interruptHalt h)
  | _, _, .unfinished b h => exact answers_next (hR.setPhase _ h)
  | _, _, .pastEnd => exact fun _ e => nomatch e

theorem getcRead (h : R s s') : R (getcRead s) (getcRead s') := by
  unfold Machine.getcRead
  match Machine.readChar s, Machine.readChar s', hR.readChar h with
  | _, _, .got c h => exact hR.storeChar c h
  | _, _, .waiting h => exact hR.setPhase _ h
  | _, _, .interrupted h => exact hR.interruptHalt h

theorem inRead (p : Params) (h : R s s') : R (inRead p s) (inRead p s') := by
  unfold Machine.inRead
  match Machine.readChar s, Machine.readChar s', hR.readChar h with
  | _, _, .waiting h => exact hR.setPhase _ h
  | _, _, .interrupted h => exact hR.interruptHalt h
  | .got _ t, .got _ t', .got c h =>
    dsimp only
    match Machine.writeNext p.inPrompt.isEmpty c t, Machine.writeNext p.inPrompt.isEmpty c t', hR.writeNext _ c h with
    | _, _, .done h => exact hR.storeChar c h
    | _, _, .interrupted h => exact hR.interruptHalt h

theorem inStart (p : Params) (h : R s s') : R (inStart p s) (inStart p s') := by
  unfold Machine.inStart
  match Machine.printChars true p.inPrompt s, Machine.printChars true p.inPrompt s', hR.printChars true p.inPrompt h with
  | _, _, .done h => exact hR.inRead p h
  | _, _, .interrupted h => exact hR.interruptHalt h

/-! ### Addresses -/

theorem eaPcRel9 (offset9 : BitVec 9) (h : R s s') : eaPcRel9 offset9 s' = eaPcRel9 offset9 s := by
  rw [Machine.eaPcRel9, Machine.eaPcRel9, hR.pc h]

theorem memReadValue (a : Word) (h : R s s') : memReadValue params a s' = memReadValue params a s :=
  hR.memPeek a (hR.poll params h)

theorem eaIndirect (offset9 : BitVec 9) (h : R s s') : eaIndirect params offset9 s' = eaIndirect params offset9 s := by
  rw [Machine.eaIndirect, Machine.eaIndirect, hR.eaPcRel9 offset9 h, hR.memReadValue _ h]

theorem loadFrom (dr : Reg) (ea : Word) (h : R s s') : R (loadFrom params dr ea s) (loadFrom params dr ea s') := by
  rw [Machine.loadFrom, Machine.loadFrom, hR.memReadValue ea h]
  exact hR.writeResult _ _ (hR.poll params h)

/-! ### The instructions -/

/-- An instruction does the same from related states, if they agree in the registers it reads and, for BR, in `COND`. -/
theorem exec {i : Instr} (wellFormed : i.wellFormed = true) (h : R s s') (regs : ∀ r ∈ readRegs i, s'.reg r = s.reg r)
    (flags : i.row = .br → s'.cond = s.cond) : Answers R (exec i s) (exec i s') := by
  have pc := hR.pc h
  simp only [readRegs] at regs
  cases i with
  | br n z p offset9 =>
    simp only [Machine.exec, execBr, flags rfl, hR.eaPcRel9 offset9 h]
    split_ifs
    · exact answers_next (hR.setPc _ h)
    · exact answers_next h
  | addReg dr sr1 sr2 | andReg dr sr1 sr2 | addImm dr sr1 imm5 | andImm dr sr1 imm5 | notReg dr sr1 =>
    simp only [List.forall_mem_cons] at regs
    simp only [Machine.exec, execAddReg, execAndReg, execAddImm, execAndImm, execNotReg, regs]
    exact answers_next (hR.writeResult _ _ h)
  | lea dr offset9 =>
    simp only [Machine.exec, execLea, hR.eaPcRel9 offset9 h]
    exact answers_next (hR.writeResult _ _ h)
  | ld dr offset9 =>
    simp only [Machine.exec, execLd, hR.eaPcRel9 offset9 h]
    exact answers_next (hR.loadFrom _ _ h)
  | ldr dr baseR offset6 =>
    simp only [Machine.exec, execLdr, Machine.eaBase, regs baseR (List.mem_singleton_self baseR)]
    exact answers_next (hR.loadFrom _ _ h)
  | ldi dr offset9 =>
    simp only [Machine.exec, execLdi, hR.eaIndirect offset9 h]
    exact answers_next (hR.loadFrom _ _ (hR.poll params h))
  | st sr offset9 =>
    simp only [Machine.exec, execSt, hR.eaPcRel9 offset9 h, regs sr (List.mem_singleton_self sr)]
    exact answers_next (hR.memWrite _ _ h)
  | str sr baseR offset6 =>
    simp only [List.forall_mem_cons] at regs
    simp only [Machine.exec, execStr, Machine.eaBase, regs]
    exact answers_next (hR.memWrite _ _ h)
  | sti sr offset9 =>
    simp only [Machine.exec, execSti, hR.eaIndirect offset9 h, regs sr (List.mem_singleton_self sr)]
    exact answers_next (hR.memWrite _ _ (hR.poll params h))
  | jmp baseR =>
    simp only [Machine.exec, execJmp, regs baseR (List.mem_singleton_self baseR)]
    exact answers_next (hR.setPc _ h)
  | jsr offset11 =>
    simp only [Machine.exec, execJsr, eaPcRel11, pc]
    exact answers_next (hR.setPc _ (hR.setReg _ _ h))
  | jsrr baseR =>
    simp only [Machine.exec, execJsrr, State.reg_setReg, pc, regs baseR (List.mem_singleton_self baseR)]
    exact answers_next (hR.setPc _ (hR.setReg _ _ h))
  | reserved8 | reserved13 | halt => exact answers_next (hR.stop _ h)
  | trap code =>
    have undefined : Config.isDefinedTrap code = false := Bool.not_eq_true' _ |>.mp wellFormed
    rw [exec_trap_undefined undefined, exec_trap_undefined undefined]
    exact answers_next (hR.stop _ h)
  | out =>
    rw [exec_out, exec_out, regs .r0 (List.mem_singleton_self _)]
    exact answers_next (hR.writeChar _ h)
  | getc => exact answers_next (hR.getcRead h)
  | inEcho => exact answers_next (hR.inStart params h)
  | puts =>
    rw [exec_puts, exec_puts, regs .r0 (List.mem_singleton_self _)]
    exact hR.scan _ _ _ _ _ h
  | putsp =>
    rw [exec_putsp, exec_putsp, regs .r0 (List.mem_singleton_self _)]
    exact hR.scan _ _ _ _ _ h

/-- A step does the same from related states that agree in where they stand, in the registers and in `COND`. -/
theorem step (h : R s s') (run : s'.run = s.run) (phase : s'.phase = s.phase) (regs : s'.regs = s.regs)
    (cond : s'.cond = s.cond) : Answers R (step s) (step s') := by
  have turn := hR.hostTurn h
  cases hr : s.run with
  | halted =>
    rw [step_halted hr, step_halted (run.trans hr)]
    exact answers_next h
  | running =>
    have hr' := run.trans hr
    cases hp : s.phase with
    | fetch =>
      have hp' := phase.trans hp
      cases hi : (Machine.hostTurn s).intr with
      | true =>
        rw [step_interrupt hr hp hi, step_interrupt hr' hp' ((hR.intr turn).trans hi)]
        exact answers_next (hR.interruptHalt turn)
      | false =>
        rw [step_fetch hr hp hi, step_fetch hr' hp' ((hR.intr turn).trans hi), fetchWord, fetchWord, fetchState, fetchState,
          hR.memReadValue _ turn, hR.pc turn]
        refine hR.exec (decode_wellFormed _) (hR.setPc _ (hR.poll params turn)) (fun r _ => ?_) fun _ => ?_
        · simpa [memReadState] using State.reg_congr regs r
        · simpa [memReadState] using cond
    | getc =>
      rw [step_getc hr hp, step_getc hr' (phase.trans hp)]
      exact answers_next (hR.getcRead h)
    | inEcho =>
      rw [step_inEcho hr hp, step_inEcho hr' (phase.trans hp)]
      exact answers_next (hR.inRead params h)
    | puts a =>
      rw [step_puts hr hp, step_puts hr' (phase.trans hp)]
      exact hR.scan _ _ _ _ _ h
    | putsp a =>
      rw [step_putsp hr hp, step_putsp hr' (phase.trans hp)]
      exact hR.scan _ _ _ _ _ h

end
end Unseen

/-! ### One register -/

/-- `s'` is `s` with perhaps another value in `r`. -/
def DifferInReg (r : Reg) (s s' : State) : Prop := ∃ v, s' = s.setReg r v

theorem State.setReg_reg (s : State) (r : Reg) : s.setReg r (s.reg r) = s := by cases r <;> rfl

/-- Two writes of registers in the other order; to one register, the later write stands. -/
theorem State.setReg_setReg (s : State) (r q : Reg) (v w : Word) :
    (s.setReg r v).setReg q w = (s.setReg q w).setReg r (if r = q then w else v) := by
  cases r <;> cases q <;> rfl

theorem hostTurn_setReg (s : State) (r : Reg) (v : Word) : hostTurn (s.setReg r v) = (hostTurn s).setReg r v := by
  unfold hostTurn
  rw [State.setReg_host]
  cases s.host <;> cases r <;> rfl

theorem unseen_differInReg (r : Reg) : Unseen (DifferInReg r) where
  inq := by rintro s _ ⟨v, rfl⟩; simp
  intr := by rintro s _ ⟨v, rfl⟩; simp
  pc := by rintro s _ ⟨v, rfl⟩; simp
  memPeek a := by rintro ⟨v, rfl⟩; simp
  hostTurn := by rintro s _ ⟨v, rfl⟩; exact ⟨v, hostTurn_setReg s r v⟩
  setInq q := by rintro ⟨v, rfl⟩; exact ⟨v, by cases r <;> rfl⟩
  setPhase ph := by rintro ⟨v, rfl⟩; exact ⟨v, by cases r <;> rfl⟩
  setPc a := by rintro ⟨v, rfl⟩; exact ⟨v, by cases r <;> rfl⟩
  setReg q w := by rintro ⟨v, rfl⟩; exact ⟨_, State.setReg_setReg _ r q v w⟩
  setcc w := by rintro ⟨v, rfl⟩; exact ⟨v, by cases r <;> rfl⟩
  memWrite a w := by rintro ⟨v, rfl⟩; exact ⟨v, by cases r <;> rfl⟩
  writeChar b := by rintro ⟨v, rfl⟩; exact ⟨v, by cases r <;> rfl⟩
  stop e := by rintro ⟨v, rfl⟩; exact ⟨v, by cases r <;> rfl⟩
  interruptHalt := by rintro s _ ⟨v, rfl⟩; exact ⟨(interruptHalt s).reg r, by rw [State.setReg_reg]; cases r <;> rfl⟩

/-- Settles O46: a register the instruction does not list is unseen to it. -/
theorem onlyListedRegistersAreRead : Obligations.OnlyListedRegistersAreRead := by
  unfold Obligations.OnlyListedRegistersAreRead
  intro i s t r v wellFormed unlisted executed
  have regs (q : Reg) (listed : q ∈ readRegs i) : (s.setReg r v).reg q = s.reg q :=
    State.reg_setReg_ne s v fun e => unlisted (e ▸ listed)
  obtain ⟨_, executed', w, rfl⟩ :=
    (unseen_differInReg r).exec wellFormed ⟨v, rfl⟩ regs (fun _ => State.setReg_cond s r v) t executed
  exact ⟨t.setReg r w, executed', by cases r <;> rfl, fun q other => State.reg_setReg_ne t w other⟩

/-! ### COND -/

/-- `s'` is `s` with perhaps another value in `COND`. -/
def DifferInCond (s s' : State) : Prop := ∃ c, s' = { s with cond := c }

theorem unseen_differInCond : Unseen DifferInCond where
  inq := by rintro s _ ⟨c, rfl⟩; rfl
  intr := by rintro s _ ⟨c, rfl⟩; rfl
  pc := by rintro s _ ⟨c, rfl⟩; rfl
  memPeek a := by rintro ⟨c, rfl⟩; rfl
  hostTurn := by rintro s _ ⟨c, rfl⟩; exact ⟨c, by unfold hostTurn; dsimp only; split <;> rfl⟩
  setInq q := by rintro ⟨c, rfl⟩; exact ⟨c, rfl⟩
  setPhase ph := by rintro ⟨c, rfl⟩; exact ⟨c, rfl⟩
  setPc a := by rintro ⟨c, rfl⟩; exact ⟨c, rfl⟩
  setReg r v := by rintro ⟨c, rfl⟩; exact ⟨c, by cases r <;> rfl⟩
  setcc v := by rintro ⟨c, rfl⟩; exact ⟨flagOf v, rfl⟩
  memWrite a v := by rintro ⟨c, rfl⟩; exact ⟨c, rfl⟩
  writeChar b := by rintro ⟨c, rfl⟩; exact ⟨c, rfl⟩
  stop e := by rintro ⟨c, rfl⟩; exact ⟨c, rfl⟩
  interruptHalt := by rintro s _ ⟨c, rfl⟩; exact ⟨(interruptHalt s).cond, rfl⟩

/-- Settles O48: `COND` is unseen to every instruction but BR; an ill-formed trap term runs as its routine, which is none. -/
theorem onlyBranchReadsCond : Obligations.OnlyBranchReadsCond := by
  unfold Obligations.OnlyBranchReadsCond
  intro i s t c no_branch executed
  rw [← exec_resolved] at executed ⊢
  obtain ⟨_, executed', c', rfl⟩ := unseen_differInCond.exec (resolved_wellFormed i) ⟨c, rfl⟩
    (fun r _ => State.reg_congr rfl r) (fun branch => absurd (row_resolved i ▸ branch) no_branch) t executed
  exact ⟨_, executed', rfl⟩

/-! ### The streams -/

/-- `s'` is `s` with `o` and `d` as a past before its streams. -/
def DifferInPast (o : List Byte) (d : List Diag) (s s' : State) : Prop :=
  s' = { s with out := o ++ s.out, diag := d ++ s.diag }

theorem unseen_differInPast (o : List Byte) (d : List Diag) : Unseen (DifferInPast o d) where
  inq := by rintro s _ rfl; rfl
  intr := by rintro s _ rfl; rfl
  pc := by rintro s _ rfl; rfl
  memPeek a := by rintro rfl; rfl
  hostTurn := by rintro s _ rfl; unfold DifferInPast hostTurn; dsimp only; split <;> rfl
  setInq q := by rintro rfl; rfl
  setPhase ph := by rintro rfl; rfl
  setPc a := by rintro rfl; rfl
  setReg r v := by rintro rfl; cases r <;> rfl
  setcc v := by rintro rfl; rfl
  memWrite a v := by rintro rfl; rfl
  writeChar b := by rintro rfl; simp [DifferInPast, writeChar]
  stop e := by rintro rfl; simp [DifferInPast, setHalted, emitDiag]
  interruptHalt := by rintro s _ rfl; rfl

/-- Settles O54: the past of the streams is unseen to a step. -/
theorem streamsAreNeverRead : Obligations.StreamsAreNeverRead := by
  unfold Obligations.StreamsAreNeverRead
  intro s t o d stepped
  obtain ⟨_, stepped', rfl⟩ := (unseen_differInPast o d).step rfl rfl rfl rfl rfl t stepped
  exact stepped'

end Sys2Proof.Machine
end

section
/-!
The frames of the shared operations: what a store, a poll, a sequence of polls and the fetch leave alone.
-/
namespace Sys2Proof.Machine

/-! ### Frames -/

theorem sameCells_of_mem {stored : List Word} {s t : State} (h : t.mem = s.mem) : SameCells stored s t :=
  fun a _ => memPeek_congr h a

theorem SameCells.trans {stored : List Word} {s t u : State} (h : SameCells stored s t) (h' : SameCells stored t u) :
    SameCells stored s u :=
  fun a ha => (h' a ha).trans (h a ha)

theorem SameCells.mono {stored more : List Word} {s t : State} (h : SameCells stored s t) (sub : stored ⊆ more) :
    SameCells more s t :=
  fun a ha => h a fun mem => ha (sub mem)

theorem sameRegs_of_regs {written : List Reg} {s t : State} (h : t.regs = s.regs) : SameRegs written s t :=
  fun r _ => State.reg_congr h r

theorem sameCells_memWrite {s : State} (canonical : s.mem.wf = true) (a v : Word) : SameCells [a] s (memWrite a v s) :=
  fun b other => by rw [memPeek_memWrite canonical, if_neg (List.mem_singleton.not.mp other)]

theorem sameCells_poll (p : Params) {s : State} (canonical : s.mem.wf = true) :
    SameCells [kbsrAddr, kbdrAddr] s (poll p s) := by
  intro a other
  simp only [List.mem_cons, List.not_mem_nil, or_false, not_or] at other
  rw [memPeek_poll p canonical]
  split <;> simp [other]

/-! ### A sequence of polls -/

@[simp] theorem polls_keeps (k : Nat) (s : State) :
    (polls k s).regs = s.regs ∧ (polls k s).pc = s.pc ∧ (polls k s).cond = s.cond ∧ (polls k s).run = s.run ∧
    (polls k s).phase = s.phase ∧ (polls k s).out = s.out ∧ (polls k s).diag = s.diag ∧ (polls k s).draws = s.draws := by
  induction k generalizing s with
  | zero => simp [polls]
  | succ k ih => simp [polls, ih]

theorem turnsTaken_polls (k : Nat) (s : State) : TurnsTaken s (polls k s) := by
  induction k generalizing s with
  | zero => exact TurnsTaken.refl s
  | succ k ih => exact (turnsTaken_poll params s).trans (ih _)

theorem polls_wf (k : Nat) {s : State} (canonical : s.mem.wf = true) : (polls k s).mem.wf = true := by
  induction k generalizing s with
  | zero => exact canonical
  | succ k ih => exact ih (poll_wf params canonical)

theorem sameCells_polls (k : Nat) {s : State} (canonical : s.mem.wf = true) :
    SameCells [kbsrAddr, kbdrAddr] s (polls k s) := by
  induction k generalizing s with
  | zero => exact fun _ _ => rfl
  | succ k ih => exact (sameCells_poll params canonical).trans (ih (poll_wf params canonical))

/-- With a quiet host each poll takes one character, as long as there are any (R55, D6). -/
theorem polls_inq (k : Nat) {s : State} (quiet : QuietHost s) : (polls k s).inq = s.inq.drop k := by
  induction k generalizing s with
  | zero => rfl
  | succ k ih =>
    have idle := hostTurn_idle quiet.2
    have quiet' : QuietHost (poll params s) := ⟨by rw [poll_intr, idle, quiet.1], by rw [poll_host, idle, quiet.2]⟩
    rw [polls, ih quiet', poll_inq, idle, List.drop_tail]

/-! ### The fetch changes `pc`, memory and the host's side only (R171) -/

@[simp] theorem fetchState_keeps (p : Params) (s : State) :
    (fetchState p s).regs = s.regs ∧ (fetchState p s).cond = s.cond ∧ (fetchState p s).run = s.run ∧
    (fetchState p s).phase = s.phase ∧ (fetchState p s).out = s.out ∧ (fetchState p s).diag = s.diag ∧
    (fetchState p s).draws = s.draws :=
  ⟨poll_regs p s, poll_cond p s, poll_run p s, poll_phase p s, poll_out p s, poll_diag p s, poll_draws p s⟩

theorem turnsTaken_fetch (s : State) : TurnsTaken s (fetchState params (hostTurn s)) :=
  ((turnsTaken_hostTurn s).trans (turnsTaken_poll params _))

end Sys2Proof.Machine
end

section
/-!
What every step keeps. `step_end` is the inversion of `step`; each rule below is a case split over it, over `ExecEnd` and
over `TrapEnd`.
-/
namespace Sys2Proof.Machine

/-! ### The inversion of the step -/

/-- Everything a step can do from `s`. -/
inductive StepEnd (s : State) : State → Prop
  /-- a halted machine stays as it is (R173) -/
  | halted (run : s.run = .halted) : StepEnd s s
  /-- an instruction was fetched and executed (R171) -/
  | executed {t : State} (run : s.run = .running) (phase : s.phase = .fetch) (request : (hostTurn s).intr = false)
      (h : ExecEnd (decode (fetchWord params (hostTurn s))) (fetchState params (hostTurn s)) t) : StepEnd s t
  /-- the interrupt before the fetch (R180), or one more turn of a routine that has not completed -/
  | terminal {char : Bool} {t : State} (run : s.run = .running) (h : TrapEnd s char t) : StepEnd s t

theorem step_end {s t : State} (stepped : step s = .next t) : StepEnd s t := by
  cases run : s.run with
  | halted =>
    rw [step_halted run] at stepped
    cases stepped
    exact .halted run
  | running =>
    cases phase : s.phase with
    | fetch =>
      cases request : (hostTurn s).intr with
      | true =>
        rw [step_interrupt run phase request] at stepped
        cases stepped
        exact .terminal (char := false) run (.interrupted _ (moved_hostTurn s) request)
      | false =>
        rw [step_fetch run phase request] at stepped
        exact .executed run phase request (exec_end (decode_wellFormed _) stepped)
    | getc =>
      rw [step_getc run phase] at stepped
      cases stepped
      exact .terminal run (trapEnd_getcRead s)
    | inEcho =>
      rw [step_inEcho run phase] at stepped
      cases stepped
      exact .terminal run (trapEnd_inRead params (Moved.refl s))
    | puts a =>
      obtain ⟨u, scanned, h⟩ := trapEnd_scan .puts putsChars scanLimit false a s
      rw [step_puts run phase, scanned] at stepped
      cases stepped
      exact .terminal run h
    | putsp a =>
      obtain ⟨u, scanned, h⟩ := trapEnd_scan .putsp putspChars scanLimit false a s
      rw [step_putsp run phase, scanned] at stepped
      cases stepped
      exact .terminal run h

/-! ### Every step answers (R178), a halted machine with itself (R173) -/

theorem exec_answers {i : Instr} (wellFormed : i.wellFormed = true) (s : State) : ∃ t, exec i s = .next t := by
  cases i with
  | trap code => exact ⟨_, exec_trap_undefined (Bool.not_eq_true' _ |>.mp wellFormed) s⟩
  | puts => exact (trapEnd_scan .puts putsChars scanLimit true (s.reg .r0) s).imp fun _ h => h.1
  | putsp => exact (trapEnd_scan .putsp putspChars scanLimit true (s.reg .r0) s).imp fun _ h => h.1
  | _ => exact ⟨_, rfl⟩

/-- Settles O41: no arm of the step has another outcome than a next state; a scan has none by `finishScan_cases`. -/
theorem everyStepAnswers : Obligations.EveryStepAnswers := by
  unfold Obligations.EveryStepAnswers
  intro s
  cases run : s.run with
  | halted => exact ⟨s, step_halted run⟩
  | running =>
    cases phase : s.phase with
    | fetch =>
      cases request : (hostTurn s).intr with
      | true => exact ⟨_, step_interrupt run phase request⟩
      | false => exact (exec_answers (decode_wellFormed _) _).imp fun _ => (step_fetch run phase request).trans
    | getc => exact ⟨_, step_getc run phase⟩
    | inEcho => exact ⟨_, step_inEcho run phase⟩
    | puts a => exact (trapEnd_scan _ _ _ _ a s).imp fun _ h => (step_puts run phase).trans h.1
    | putsp a => exact (trapEnd_scan _ _ _ _ a s).imp fun _ h => (step_putsp run phase).trans h.1

/-- Settles O39: `step_halted`. -/
theorem haltedTakesNoStep : Obligations.HaltedTakesNoStep := by
  unfold Obligations.HaltedTakesNoStep
  exact fun _ => step_halted

/-- Settles O40: the step is `interruptHalt` after the host's turn. -/
theorem interruptIsExaminedBeforeTheStep : Obligations.InterruptIsExaminedBeforeTheStep := by
  unfold Obligations.InterruptIsExaminedBeforeTheStep
  intro s run phase request
  exact ⟨_, step_interrupt run phase request, ⟨rfl, request, hostTurn_diag s⟩, hostTurn_out s, rfl, step_halted rfl⟩

/-! ### The invariant -/

theorem TrapEnd.inv {s t : State} {char : Bool} (h : TrapEnd s char t) (canonical : s.mem.wf = true)
    (run : s.run = .running) : t.Inv := by
  cases h with
  | interrupted u hm hi => exact ⟨interruptHalt_wf u, fun _ => rfl⟩
  | stored c u hm hc => exact ⟨by rw [storeChar_mem, hm.mem, canonical], fun _ => rfl⟩
  | standsAt u ph hm hc =>
    refine ⟨by rw [State.setPhase_mem, hm.mem, canonical], fun halted => ?_⟩
    simp [hm.run, run] at halted

theorem ExecEnd.inv {i : Instr} {s t : State} (h : ExecEnd i s t) (canonical : s.mem.wf = true)
    (run : s.run = .running) (phase : s.phase = .fetch) : t.Inv := by
  cases h with
  | terminal char t h => exact h.inv canonical run
  | result dr v k => exact ⟨by rw [writeResult_mem, polls_wf k canonical], fun _ => by simp [phase]⟩
  | store ea v k => exact ⟨memWrite_wf ea v (polls_wf k canonical), fun _ => by simp [phase]⟩
  | jump u h =>
    obtain ⟨mem, ph⟩ : u.mem = s.mem ∧ u.phase = s.phase := by
      rcases h with rfl | ⟨rfl, _⟩ <;> simp
    exact ⟨by rw [State.setPc_mem, mem, canonical], fun _ => by rw [State.setPc_phase, ph, phase]⟩
  | out b => exact ⟨canonical, fun _ => phase⟩
  | halted e => exact ⟨canonical, fun _ => phase⟩

/-- Settles O42: a halted machine keeps its state; an instruction and a turn of a routine keep the invariant by `ExecEnd.inv`
and `TrapEnd.inv`. -/
theorem stepKeepsTheInvariant : Obligations.StepKeepsTheInvariant := by
  unfold Obligations.StepKeepsTheInvariant
  intro s t inv stepped
  cases step_end stepped with
  | halted => exact inv
  | executed run phase _ h =>
    exact h.inv (poll_wf params (by simp [inv.1])) (by simp [run]) (by simp [phase])
  | terminal run h => exact h.inv inv.1 run

/-- Settles O43: memory is empty and the machine runs. -/
theorem resetMeetsTheInvariant : Obligations.ResetMeetsTheInvariant := by
  unfold Obligations.ResetMeetsTheInvariant
  exact ⟨rfl, fun _ => rfl⟩

/-- Settles O44: the fields of `State.reset`, register by register. -/
theorem resetState : Obligations.ResetState := by
  unfold Obligations.ResetState
  exact ⟨fun r => by cases r <;> rfl, rfl, rfl, rfl, fun _ => rfl, rfl, rfl, rfl⟩

/-! ### The request (R36) -/

theorem TurnsTaken.congr {s t u : State} (h : TurnsTaken s t) (host : u.host = t.host) (intr : u.intr = t.intr) :
    TurnsTaken s u := by
  obtain ⟨k, h1, h2⟩ := h
  exact ⟨k, host.trans h1, intr.trans h2⟩

theorem TrapEnd.turnsTaken {s t : State} {char : Bool} (h : TrapEnd s char t) : TurnsTaken s t := by
  cases h with
  | interrupted u hm hi => exact hm.2.congr rfl rfl
  | stored c u hm hc => exact hm.2.congr (storeChar_host c u) (storeChar_intr c u)
  | standsAt u ph hm hc => exact hm.2.congr rfl rfl

theorem ExecEnd.turnsTaken {i : Instr} {s t : State} (h : ExecEnd i s t) : TurnsTaken s t := by
  cases h with
  | terminal char t h => exact h.turnsTaken
  | result dr v k => exact (turnsTaken_polls k s).congr (writeResult_host ..) (writeResult_intr ..)
  | store ea v k => exact (turnsTaken_polls k s).congr rfl rfl
  | jump u h => rcases h with rfl | ⟨rfl, _⟩ <;> exact (TurnsTaken.refl _).congr rfl rfl
  | out b => exact TurnsTaken.refl s
  | halted e => exact TurnsTaken.refl s

theorem turnsTaken_step {s t : State} (stepped : step s = .next t) : TurnsTaken s t := by
  cases step_end stepped with
  | halted => exact TurnsTaken.refl s
  | executed _ _ _ h => exact (turnsTaken_fetch s).trans h.turnsTaken
  | terminal _ h => exact h.turnsTaken

/-- Settles O55: over a step the request gains the host's turns and nothing else. -/
theorem interruptRequestIsTheHosts : Obligations.InterruptRequestIsTheHosts := by
  unfold Obligations.InterruptRequestIsTheHosts
  exact fun s t stepped => ⟨(turnsTaken_step stepped).intr, (turnsTaken_step stepped).uninterrupted⟩

/-! ### The streams (R34, R35) -/

theorem TrapEnd.diag {s t : State} {char : Bool} (h : TrapEnd s char t) : t.diag = s.diag := by
  cases h with
  | interrupted u hm hi => exact hm.diag
  | stored c u hm hc => exact (storeChar_diag c u).trans hm.diag
  | standsAt u ph hm hc => exact hm.diag

/-- An instruction emits no event, or the one it halts with. -/
theorem ExecEnd.diag {i : Instr} {s t : State} (h : ExecEnd i s t) : ∃ d, t.diag = s.diag ++ d ∧ d.length ≤ 1 := by
  suffices t.diag = s.diag ∨ ∃ e, t.diag = s.diag ++ [e] by
    rcases this with same | ⟨e, event⟩
    · exact ⟨[], by simp [same], Nat.zero_le 1⟩
    · exact ⟨[e], event, le_rfl⟩
  cases h with
  | terminal char t h => exact .inl h.diag
  | result dr v k => exact .inl (by simp)
  | store ea v k => exact .inl (by simp)
  | jump u h => rcases h with rfl | ⟨rfl, _⟩ <;> exact .inl (by simp)
  | out b => exact .inl rfl
  | halted e => exact .inr ⟨e, rfl⟩

theorem step_diag {s t : State} (stepped : step s = .next t) : ∃ d, t.diag = s.diag ++ d ∧ d.length ≤ 1 := by
  cases step_end stepped with
  | halted => exact ⟨[], by simp, Nat.zero_le 1⟩
  | executed _ _ _ h => simpa using h.diag
  | terminal _ h => exact ⟨[], by simp [h.diag], Nat.zero_le 1⟩

/-- Settles O53: as the streams are never read, the step from `s` is the step from `s` with empty output, with the past of
`s` put before what that one writes. -/
theorem streamsOnlyGrow : Obligations.StreamsOnlyGrow := by
  unfold Obligations.StreamsOnlyGrow
  intro s t stepped
  obtain ⟨t₀, stepped₀⟩ := everyStepAnswers { s with out := [] }
  have stepped' := streamsAreNeverRead _ t₀ s.out [] stepped₀
  simp only [List.append_nil, List.nil_append] at stepped'
  obtain rfl : { t₀ with out := s.out ++ t₀.out } = t := Host.Outcome.next.inj (stepped'.symm.trans stepped)
  obtain ⟨d, diag, short⟩ := step_diag stepped
  exact ⟨t₀.out, d, rfl, diag, short⟩

/-! ### Halting (R174) -/

theorem TrapEnd.halted {s t : State} {char : Bool} (h : TrapEnd s char t) (run : s.run = .running)
    (halted : t.run = .halted) : InterruptedFrom s t := by
  cases h with
  | interrupted u hm hi => exact ⟨rfl, hi, hm.diag⟩
  | stored c u hm hc => simp [hm.run, run] at halted
  | standsAt u ph hm hc => simp [hm.run, run] at halted

theorem ExecEnd.halt {i : Instr} {s t : State} (h : ExecEnd i s t) (run : s.run = .running) (halted : t.run = .halted) :
    InterruptedFrom s t ∨ ∃ e, HaltEvent i e ∧ t.diag = s.diag ++ [e] := by
  cases h with
  | terminal char t h => exact .inl (h.halted run halted)
  | halted e he => exact .inr ⟨e, he, rfl⟩
  | result dr v k => simp [run] at halted
  | store ea v k => simp [run] at halted
  | jump u h => rcases h with rfl | ⟨rfl, _⟩ <;> simp [run] at halted
  | out b => simp [run] at halted

/-- Settles O52: a routine halts by the interrupt only (`TrapEnd.halted`), an instruction by its own event besides. -/
theorem haltingConditionsAreExhaustive : Obligations.HaltingConditionsAreExhaustive := by
  unfold Obligations.HaltingConditionsAreExhaustive
  intro s t run stepped halted
  cases step_end stepped with
  | halted run' => exact absurd (run.symm.trans run') (by decide)
  | terminal _ h => exact .inl (h.halted run halted)
  | executed _ phase _ h =>
    have same_diag : (fetchState params (hostTurn s)).diag = s.diag := by simp
    rcases h.halt (by simp [run]) halted with ⟨h1, h2, h3⟩ | ⟨e, event, diag⟩
    · exact .inl ⟨h1, h2, h3.trans same_diag⟩
    · rw [same_diag] at diag
      refine .inr ⟨phase, ?_⟩
      generalize decode (fetchWord params (hostTurn s)) = i at event
      cases event with
      | halt => exact .inl ⟨rfl, diag⟩
      | reserved8 => exact .inr (.inl ⟨rfl, diag⟩)
      | reserved13 => exact .inr (.inr (.inl ⟨rfl, diag⟩))
      | trap code undefined => exact .inr (.inr (.inr ⟨code, undefined, rfl, diag⟩))

end Sys2Proof.Machine
end

section
/-!
The tables of 10_state.md R22 and R28, of R24 and of 20_memory.md R54 and R55: which registers, flags, `pc`, cells and pending
characters an instruction changes. Each is a case split over `ExecEnd`.
-/
namespace Sys2Proof.Machine

/-! ### Registers -/

theorem ExecEnd.sameRegs {i : Instr} {s t : State} (h : ExecEnd i s t) (quiet : Uninterrupted s) :
    SameRegs (writtenRegs i) s t := by
  intro r unlisted
  cases h with
  | terminal char t h _ _ _ listed =>
    cases h with
    | interrupted u hm hi => exact absurd quiet (hm.not_uninterrupted hi)
    | stored c u hm hc =>
      rw [if_pos hc] at listed
      rw [storeChar_reg, if_neg fun e => unlisted (by simp [listed.2, e]), hm.reg]
    | standsAt u ph hm => rw [State.setPhase_reg, hm.reg]
  | result dr v k _ _ listed =>
    rw [writeResult_reg, if_neg fun e => unlisted (by simp [listed, e])]
    exact State.reg_congr (by simp) r
  | store ea v k => exact State.reg_congr (by simp) r
  | jump u h =>
    rw [State.setPc_reg]
    rcases h with rfl | ⟨rfl, listed⟩
    · rfl
    · exact State.reg_setReg_ne _ _ fun e => unlisted (by simp [listed, e])
  | out b => exact writeChar_reg b s r
  | halted e => exact State.reg_congr rfl r

/-- Settles O45: `ExecEnd.sameRegs`. -/
theorem onlyListedRegistersAreWritten : Obligations.OnlyListedRegistersAreWritten := by
  unfold Obligations.OnlyListedRegistersAreWritten
  exact fun i s t wellFormed quiet executed => (exec_end wellFormed executed).sameRegs quiet

/-! ### COND -/

/-- Settles O47: only `result` and `stored` write `COND`, with the flag of the value in their register. -/
theorem onlyFlagWritesChangeCond : Obligations.OnlyFlagWritesChangeCond := by
  unfold Obligations.OnlyFlagWritesChangeCond
  intro i s t wellFormed quiet _ executed
  cases exec_end wellFormed executed with
  | terminal char t h _ _ _ flags =>
    cases h with
    | interrupted u hm hi => exact absurd quiet (hm.not_uninterrupted hi)
    | stored c u hm hc =>
      rw [if_pos hc] at flags
      rw [flags.1]
      exact .inl (by simp [storeChar_reg])
    | standsAt u ph hm waits =>
      cases char with
      | true =>
        rw [if_pos rfl] at flags
        rw [flags.1]
        exact .inr ⟨hm.cond, waits rfl⟩
      | false =>
        rw [if_neg Bool.false_ne_true] at flags
        rw [flags]
        exact hm.cond
  | result dr v k _ flags =>
    rw [flags]
    exact .inl (by simp [writeResult_reg])
  | store ea v k _ _ flags =>
    rw [flags]
    simp
  | jump u h _ flags =>
    rw [flags]
    rcases h with rfl | ⟨rfl, _⟩ <;> simp
  | out b hi =>
    subst hi
    rfl
  | halted e he => cases he <;> rfl

/-! ### `pc` -/

theorem ExecEnd.pc {i : Instr} {s t : State} (h : ExecEnd i s t) (quiet : Uninterrupted s) : t.pc = pcAfter i s := by
  cases h with
  | terminal char t h _ _ pc =>
    rw [pc]
    cases h with
    | interrupted u hm hi => exact absurd quiet (hm.not_uninterrupted hi)
    | stored c u hm => rw [storeChar_pc, hm.pc]
    | standsAt u ph hm => exact hm.pc
  | result dr v k _ _ _ pc => simp [pc]
  | store ea v k _ _ _ pc => simp [pc]
  | jump u => rfl
  | out b hi =>
    subst hi
    rfl
  | halted e he => cases he <;> rfl

/-- Settles O49: the fetch increments `pc`, and the instruction leaves it by `ExecEnd.pc`. -/
theorem pcAfterEveryInstruction : Obligations.PcAfterEveryInstruction := by
  unfold Obligations.PcAfterEveryInstruction
  intro s t run phase quiet stepped
  have request : (hostTurn s).intr = false := (hostTurn_uninterrupted quiet).1
  rw [step_fetch run phase request] at stepped
  refine ⟨by rw [fetchState_pc_toNat, hostTurn_pc], ?_⟩
  exact (exec_end (decode_wellFormed _) stepped).pc ((turnsTaken_fetch s).uninterrupted quiet)

/-! ### Memory -/

/-- An instruction's own polls, none where its row has the fetch's poll only, touch the device cells. -/
theorem sameCells_ownPolls {i : Instr} {s : State} {k : Nat} (canonical : s.mem.wf = true) (count : pollCount i = k + 1) :
    SameCells (if pollCount i = 1 then [] else [kbsrAddr, kbdrAddr]) s (polls k s) := by
  rw [count]
  cases k with
  | zero => exact fun _ _ => rfl
  | succ k => exact sameCells_polls (k + 1) canonical

theorem ExecEnd.sameCells {i : Instr} {s t : State} (h : ExecEnd i s t) (canonical : s.mem.wf = true)
    (quiet : Uninterrupted s) :
    SameCells (storedCells i s ++ if pollCount i = 1 then [] else [kbsrAddr, kbdrAddr]) s t := by
  cases h with
  | terminal char t h =>
    cases h with
    | interrupted u hm hi => exact absurd quiet (hm.not_uninterrupted hi)
    | stored c u hm => exact sameCells_of_mem ((storeChar_mem c u).trans hm.mem)
    | standsAt u ph hm => exact sameCells_of_mem hm.mem
  | result dr v k count =>
    have polled := (sameCells_ownPolls canonical count).mono (List.subset_append_right (storedCells i s) _)
    exact polled.trans (sameCells_of_mem (writeResult_mem ..))
  | store ea v k count stored =>
    have polled := (sameCells_ownPolls canonical count).mono (List.subset_append_right (storedCells i s) _)
    refine polled.trans ((sameCells_memWrite (polls_wf k canonical) ea v).mono ?_)
    simp [stored]
  | jump u h => rcases h with rfl | ⟨rfl, _⟩ <;> exact sameCells_of_mem (by simp)
  | out b => exact sameCells_of_mem rfl
  | halted e => exact sameCells_of_mem rfl

/-- Settles O50: `ExecEnd.sameCells`; an ill-formed trap term runs as its routine and has the same rows in both tables. -/
theorem onlyStoresAndPollsChangeMemory : Obligations.OnlyStoresAndPollsChangeMemory := by
  unfold Obligations.OnlyStoresAndPollsChangeMemory
  intro i s t canonical quiet executed
  rw [← exec_resolved] at executed
  rw [← storedCells_resolved, ← pollCount_resolved]
  exact (exec_end (resolved_wellFormed i) executed).sameCells canonical quiet

end Sys2Proof.Machine
end

section
/-!
The string routines PUTS and PUTSP (43_trap.md R144, R146, R148). `scan_ahead` says once what a step of a scan does from a
string that ends and from one that does not; the four statements about the routines follow from it.
-/
namespace Sys2Proof.Machine

/-! ### The turns of the host during a routine's output (log entry 8) -/

theorem writeNext_advanced {first : Bool} {b : Byte} {s t : State} (h : writeNext first b s = .done t) :
    HostAdvanced (turnsBefore first) s t := by
  unfold writeNext at h
  split_ifs at h with begins
  · cases h
    rw [begins]
    exact hostAdvanced_zero s
  · cases h
    rw [Bool.not_eq_true] at begins
    rw [begins]
    exact hostAdvanced_hostTurn s

theorem printChars_advanced {first : Bool} {bs : List Byte} {s t : State} (h : printChars first bs s = .done t) :
    HostAdvanced (turnsOf first bs.length) s t := by
  induction bs generalizing first s with
  | nil =>
    rw [printChars_nil] at h
    cases h
    cases first <;> exact hostAdvanced_zero _
  | cons b bs ih =>
    unfold printChars at h
    cases written : writeNext first b s with
    | interrupted u => rw [written] at h; cases h
    | done u =>
      rw [written] at h
      have turns := (writeNext_advanced written).trans (ih h)
      cases first <;> simpa [turnsBefore, turnsOf, Nat.add_comm] using turns

/-- After `l` bytes, at least one, every further byte has its turn. -/
theorem turnsOf_add (first : Bool) {l : Nat} (begun : 0 < l) (m : Nat) :
    turnsOf first l + turnsOf false m = turnsOf first (l + m) := by
  cases first
  · simp [turnsOf]
  · simp only [turnsOf, Bool.false_eq_true, if_true, if_false]
    omega

/-- A stretch of a scan that is not cut short has one turn of the host between two bytes. -/
theorem stringLoop_advanced {chars : Word → List Byte} (nonempty : ∀ w, chars w ≠ []) {n : Nat} {first : Bool} {a : Word}
    {s t : State} (h : stringLoop params chars n first a s = .ended t ∨
      ∃ b, stringLoop params chars n first a s = .unfinished b t) :
    ∃ m, t.out.length = s.out.length + m ∧ HostAdvanced (turnsOf first m) s t := by
  induction n generalizing first a s with
  | zero =>
    obtain rfl : s = t := by simpa [stringLoop] using h
    exact ⟨0, rfl, by cases first <;> exact hostAdvanced_zero s⟩
  | succ n ih =>
    simp only [stringLoop, scanValue_params, scanState_params, scanNext_params] at h
    by_cases zero : memPeek a s = 0#16
    · obtain rfl : s = t := by simpa [zero] using h
      exact ⟨0, rfl, by cases first <;> exact hostAdvanced_zero s⟩
    · rw [if_neg zero] at h
      cases printed : printChars first (chars (memPeek a s)) s with
      | interrupted u => simp [printed] at h
      | done u =>
        simp only [printed] at h
        obtain ⟨m, length, turns⟩ := ih h
        refine ⟨(chars (memPeek a s)).length + m, ?_, ?_⟩
        · rw [length, (printChars_done printed).2, List.length_append, Nat.add_assoc]
        · rw [← turnsOf_add first (List.length_pos_of_ne_nil (nonempty _))]
          exact (printChars_advanced printed).trans turns

/-! ### One step of a scan -/

theorem stringBytes_append (chars : Word → List Byte) (s : State) (a : Word) {j n : Nat} (h : j ≤ n) :
    ∃ later, stringBytes chars s a n = stringBytes chars s a j ++ later := by
  obtain ⟨m, rfl⟩ := Nat.exists_eq_add_of_le h
  rw [stringBytes, List.range_add, List.flatMap_append]
  exact ⟨_, rfl⟩

/-- A string has one end. -/
theorem StringEndsAt.unique {s : State} {a : Word} {n k : Nat} (ends : StringEndsAt s a n)
    (nonzero : ∀ i, i < k → stringWord s a i ≠ 0#16) (zero : stringWord s a k = 0#16) : k = n := by
  rcases Nat.lt_trichotomy k n with h | h | h
  · exact absurd zero (ends.2.1 k h)
  · exact h
  · exact absurd ends.2.2 (nonzero n h)

/-- One step of a scan writes all it has before it, or the interrupt cuts it short before the last byte. -/
theorem scan_ahead {goOn : Word → Phase} {chars : Word → List Byte} (nonempty : ∀ w, chars w ≠ []) (first : Bool)
    {s : State} {a : Word} {n : Nat} {ph : Phase} (ahead : ScanAhead goOn s a n ph) :
    (∃ u, Moved s u ∧ u.out = s.out ++ stringBytes chars s a n ∧
      HostAdvanced (turnsOf first (stringBytes chars s a n).length) s u ∧
      finishScan goOn (stringLoop params chars scanLimit first a s) = .next (u.setPhase ph)) ∨
    (∃ u m, Moved s u ∧ u.intr = true ∧ (first = true → 0 < m) ∧ m < (stringBytes chars s a n).length ∧
      u.out = s.out ++ (stringBytes chars s a n).take m ∧
      finishScan goOn (stringLoop params chars scanLimit first a s) = .next (interruptHalt u)) := by
  have limit : scanLimit = 65536 := rfl
  have turns {u : State} (out : u.out = s.out ++ stringBytes chars s a n)
      (h : stringLoop params chars scanLimit first a s = .ended u ∨
        ∃ b, stringLoop params chars scanLimit first a s = .unfinished b u) :
      HostAdvanced (turnsOf first (stringBytes chars s a n).length) s u := by
    obtain ⟨m, length, turns⟩ := stringLoop_advanced nonempty h
    rw [out, List.length_append, Nat.add_left_cancel_iff] at length
    rwa [length]
  rcases finishScan_cases goOn chars scanLimit first a s with
    ⟨k, u, _, nonzero, zero, moved, out, ended, e⟩ | ⟨k, u, m, hk, nonzero, hm, begun, moved, request, out, _, e⟩ |
    ⟨u, nonzero, moved, out, unfinished, e⟩
  · rcases ahead with ⟨ends, rfl⟩ | ⟨endless, _⟩
    · obtain rfl := ends.unique nonzero zero
      exact .inl ⟨u, moved, out, turns out (.inl ended), e⟩
    · exact absurd zero (endless _)
  · have cut_before_end : k + 1 ≤ n := by
      rcases ahead with ⟨ends, _⟩ | ⟨_, rfl, _⟩
      · by_contra h
        exact nonzero n (by omega) ends.2.2
      · omega
    obtain ⟨later, bytes⟩ := stringBytes_append chars s a cut_before_end
    refine .inr ⟨u, m, moved, request, fun h => begun h (nonempty _), ?_, ?_, e⟩
    · rw [bytes, List.length_append]
      omega
    · rw [bytes, List.take_append_of_le_length hm.le, out]
  · rcases ahead with ⟨ends, _⟩ | ⟨_, rfl, rfl⟩
    · exact absurd ends.2.2 (nonzero n (limit ▸ ends.1))
    · have wrapped : a + BitVec.ofNat 16 scanLimit = a := BitVec.add_zero a
      rw [wrapped] at e unfinished
      exact .inl ⟨u, moved, out, turns out (.inr ⟨a, unfinished⟩), e⟩

/-- With no interrupt the scan is not cut short. -/
theorem scan_ahead_uninterrupted {goOn : Word → Phase} {chars : Word → List Byte} (nonempty : ∀ w, chars w ≠ [])
    (first : Bool) {s : State} {a : Word} {n : Nat} {ph : Phase} (ahead : ScanAhead goOn s a n ph)
    (quiet : Uninterrupted s) :
    ∃ u, Moved s u ∧ u.out = s.out ++ stringBytes chars s a n ∧
      HostAdvanced (turnsOf first (stringBytes chars s a n).length) s u ∧
      finishScan goOn (stringLoop params chars scanLimit first a s) = .next (u.setPhase ph) := by
  rcases scan_ahead nonempty first ahead with h | ⟨u, m, moved, request, _⟩
  · exact h
  · exact absurd quiet (moved.not_uninterrupted request)

/-! ### The characters of a word -/

theorem putsChars_ne_nil (w : Word) : putsChars w ≠ [] := List.cons_ne_nil _ _

theorem putspChars_ne_nil (w : Word) : putspChars w ≠ [] := by
  unfold putspChars
  split_ifs <;> exact List.cons_ne_nil _ _

theorem lowByte_eq_ofNat (w : Word) : lowByte w = BitVec.ofNat 8 (w.toNat % 256) := by
  apply BitVec.eq_of_toNat_eq
  simp [lowByte, BitVec.extractLsb'_toNat]

theorem highByte_eq_ofNat (w : Word) : highByte w = BitVec.ofNat 8 (w.toNat / 256) := by
  apply BitVec.eq_of_toNat_eq
  simp [highByte, BitVec.extractLsb'_toNat, Nat.shiftRight_eq_div_pow]

theorem lowByte_eq_setWidth (w : Word) : lowByte w = w.setWidth 8 := by
  apply BitVec.eq_of_toNat_eq
  simp [lowByte, BitVec.extractLsb'_toNat]

theorem highByte_eq_zero_iff (w : Word) : highByte w = 0#8 ↔ w.toNat / 256 = 0 := by
  have := w.isLt
  rw [highByte_eq_ofNat, ← BitVec.toNat_inj, BitVec.toNat_ofNat]
  simp only [BitVec.toNat_ofNat]
  omega

theorem stringBytes_puts (s : State) (a : Word) (n : Nat) :
    stringBytes putsChars s a n = (List.range n).map fun i => (stringWord s a i).setWidth 8 := by
  simp only [stringBytes, putsChars, lowByte_eq_setWidth, List.map_eq_flatMap]

theorem putspChars_eq (w : Word) :
    putspChars w = if w.toNat / 256 = 0 then [BitVec.ofNat 8 (w.toNat % 256)]
      else [BitVec.ofNat 8 (w.toNat % 256), BitVec.ofNat 8 (w.toNat / 256)] := by
  simp only [putspChars, highByte_eq_zero_iff, ← lowByte_eq_ofNat, ← highByte_eq_ofNat]

/-! ### PUTS and PUTSP without an interrupt -/

theorem Moved.writes {s u : State} {bytes : List Byte} {k : Nat} (moved : Moved s u) (out : u.out = s.out ++ bytes)
    (turns : HostAdvanced k s u) (quiet : Uninterrupted s) : Writes bytes k s (u.setPhase .fetch) :=
  ⟨out, turns, (moved.2.uninterrupted quiet).1.trans quiet.1.symm, rfl, moved.pc, moved.cond, moved.run, moved.diag,
    moved.draws, sameRegs_of_regs moved.regs, sameCells_of_mem moved.mem⟩

/-- Settles O30: `scan_ahead_uninterrupted` at a string that ends. -/
theorem putsWritesTheString : Obligations.PutsWritesTheString := by
  unfold Obligations.PutsWritesTheString
  intro s n quiet ends
  obtain ⟨u, moved, out, turns, e⟩ :=
    scan_ahead_uninterrupted (goOn := .puts) putsChars_ne_nil true (.inl ⟨ends, rfl⟩) quiet
  rw [stringBytes_puts] at out turns
  rw [List.length_map, List.length_range] at turns
  exact ⟨_, e, moved.writes out turns quiet⟩

/-- Settles O31: as PUTS, with the bytes of `putspChars`. -/
theorem putspWritesPackedCharacters : Obligations.PutspWritesPackedCharacters := by
  unfold Obligations.PutspWritesPackedCharacters
  intro s n quiet ends
  obtain ⟨u, moved, out, turns, e⟩ :=
    scan_ahead_uninterrupted (goOn := .putsp) putspChars_ne_nil true (.inl ⟨ends, rfl⟩) quiet
  refine ⟨_, _, e, ?_, moved.writes out turns quiet⟩
  simp only [stringBytes, putspChars_eq]

/-- One step of an endless scan writes a round of all the words and stands where it stood. -/
theorem scan_endless {goOn : Word → Phase} {chars : Word → List Byte} (nonempty : ∀ w, chars w ≠ []) (first : Bool)
    {s : State} (a : Word) (endless : ∀ b, memPeek b s ≠ 0#16) (quiet : Uninterrupted s) :
    ∃ t, finishScan goOn (stringLoop params chars scanLimit first a s) = .next t ∧ t.phase = goOn a ∧
      t.out = s.out ++ stringBytes chars s a 65536 ∧ SameRegs [] s t ∧ SameCells [] s t ∧ t.run = s.run ∧
      Uninterrupted t := by
  obtain ⟨u, moved, out, _, e⟩ := scan_ahead_uninterrupted nonempty first (.inr ⟨endless, rfl, rfl⟩) quiet
  exact ⟨_, e, rfl, out, sameRegs_of_regs moved.regs, sameCells_of_mem moved.mem, moved.run,
    moved.2.uninterrupted quiet⟩

/-- Settles O32: `scan_endless` from the start of either routine and from its phase. -/
theorem endlessStringNeverCompletes : Obligations.EndlessStringNeverCompletes := by
  unfold Obligations.EndlessStringNeverCompletes
  intro s quiet endless
  refine ⟨?_, ?_, fun a run phase => ?_, fun a run phase => ?_⟩
  · obtain ⟨t, e, phase, out, regs, cells, run, _⟩ :=
      scan_endless (goOn := .puts) putsChars_ne_nil true (s.reg .r0) endless quiet
    exact ⟨t, e, phase, out, regs, cells, run⟩
  · obtain ⟨t, e, phase, out, regs, cells, run, _⟩ :=
      scan_endless (goOn := .putsp) putspChars_ne_nil true (s.reg .r0) endless quiet
    exact ⟨t, e, phase, out, regs, cells, run⟩
  · obtain ⟨t, e, phase', out, regs, cells, run', quiet'⟩ :=
      scan_endless (goOn := .puts) putsChars_ne_nil false a endless quiet
    exact ⟨t, (step_puts run phase).trans e, phase', out, run'.trans run, regs, cells, quiet'⟩
  · obtain ⟨t, e, phase', out, regs, cells, run', quiet'⟩ :=
      scan_endless (goOn := .putsp) putspChars_ne_nil false a endless quiet
    exact ⟨t, (step_putsp run phase).trans e, phase', out, run'.trans run, regs, cells, quiet'⟩

/-! ### The interrupt inside a routine -/

theorem scan_writesOrIsCut {goOn : Word → Phase} {chars : Word → List Byte} (nonempty : ∀ w, chars w ≠ []) (first : Bool)
    {s t : State} {a : Word} {n : Nat} {ph : Phase} (run : s.run = .running) (ahead : ScanAhead goOn s a n ph)
    (answered : finishScan goOn (stringLoop params chars scanLimit first a s) = .next t) :
    WritesOrIsCut (stringBytes chars s a n) first.toNat ph s t := by
  rcases scan_ahead nonempty first ahead with ⟨u, moved, out, _, e⟩ | ⟨u, m, moved, request, begun, hm, out, e⟩
  · obtain rfl := Host.Outcome.next.inj (e.symm.trans answered)
    exact .inl ⟨moved.run.trans run, rfl, out, moved.diag, sameRegs_of_regs moved.regs, sameCells_of_mem moved.mem⟩
  · obtain rfl := Host.Outcome.next.inj (e.symm.trans answered)
    refine .inr ⟨⟨rfl, request, moved.diag⟩, m, ?_, hm, out⟩
    cases first with
    | true => exact begun rfl
    | false => exact Nat.zero_le m

/-- IN halted from its ReadChar on has echoed nothing. -/
theorem inRead_halted {p : Params} {s : State} (run : s.run = .running) (halted : (inRead p s).run = .halted) :
    InterruptedFrom s (inRead p s) ∧ (inRead p s).out = s.out := by
  rcases inRead_cases p s with ⟨c, u, moved, _, e⟩ | ⟨_, _, e⟩ | ⟨u, moved, out, request, e⟩
  · simp [e, moved.run, run] at halted
  · simp [e, run] at halted
  · rw [e]
    exact ⟨⟨rfl, request, moved.diag⟩, out⟩

theorem inStart_halted {p : Params} {s : State} (run : s.run = .running) (halted : (inStart p s).run = .halted) :
    InterruptedFrom s (inStart p s) ∧ ∃ m, m ≤ p.inPrompt.length ∧ (p.inPrompt ≠ [] → 0 < m) ∧
      (inStart p s).out = s.out ++ p.inPrompt.take m := by
  rcases inStart_cases p s with ⟨u, _, moved, out, e⟩ | ⟨u, m, moved, request, hm, begun, out, e⟩
  · rw [e] at halted ⊢
    obtain ⟨⟨run', request, diag⟩, out'⟩ := inRead_halted (moved.run.trans run) halted
    refine ⟨⟨run', request, diag.trans moved.diag⟩, p.inPrompt.length, le_rfl, List.length_pos_of_ne_nil, ?_⟩
    rw [out', out, List.take_length]
  · rw [e]
    exact ⟨⟨rfl, request, moved.diag⟩, m, hm.le, fun _ => begun, out⟩

/-- Settles O33: PUTS and PUTSP by `scan_writesOrIsCut`, IN by the two lemmas on its halt. -/
theorem interruptedRoutineLeavesAPrefix : Obligations.InterruptedRoutineLeavesAPrefix := by
  unfold Obligations.InterruptedRoutineLeavesAPrefix
  intro s t a n ph run
  refine ⟨fun ahead answered => ?_, fun ahead answered => ?_, fun ahead phase answered => ?_,
    fun ahead phase answered => ?_, fun answered halted => ?_, fun phase answered halted => ?_⟩
  · exact scan_writesOrIsCut putsChars_ne_nil true run ahead answered
  · exact scan_writesOrIsCut putspChars_ne_nil true run ahead answered
  · rw [step_puts run phase] at answered
    exact scan_writesOrIsCut putsChars_ne_nil false run ahead answered
  · rw [step_putsp run phase] at answered
    exact scan_writesOrIsCut putspChars_ne_nil false run ahead answered
  · obtain rfl := Host.Outcome.next.inj answered
    exact inStart_halted run halted
  · rw [step_inEcho run phase] at answered
    obtain rfl := Host.Outcome.next.inj answered
    exact inRead_halted run halted

end Sys2Proof.Machine
end

section
/-!
The queue over a step: one character per poll (20_memory.md R54), for the scans poll nothing.
-/
namespace Sys2Proof.Machine


theorem QuietHost.uninterrupted {s : State} (quiet : QuietHost s) : Uninterrupted s :=
  ⟨quiet.1, by simp [quiet.2]⟩

theorem HostAdvanced.inq_of_idle {k : Nat} {s t : State} (turns : HostAdvanced k s t) (idle : s.host = []) :
    t.inq = s.inq := by
  simp [turns.2, arrivals, idle]

/-- A scan polls nothing (R57, D8). -/
theorem scan_inq {goOn : Word → Phase} {chars : Word → List Byte} (nonempty : ∀ w, chars w ≠ []) {n : Nat} {first : Bool}
    {a : Word} {s t : State} (quiet : QuietHost s)
    (answered : finishScan goOn (stringLoop params chars n first a s) = .next t) : t.inq = s.inq := by
  rcases finishScan_cases goOn chars n first a s with
    ⟨_, u, _, _, _, _, _, ended, e⟩ | ⟨_, u, _, _, _, _, _, moved, request, _⟩ | ⟨u, _, _, _, unfinished, e⟩
  · obtain rfl := Host.Outcome.next.inj (e.symm.trans answered)
    obtain ⟨_, _, turns⟩ := stringLoop_advanced nonempty (.inl ended)
    exact turns.inq_of_idle quiet.2
  · exact absurd quiet.uninterrupted (moved.not_uninterrupted request)
  · obtain rfl := Host.Outcome.next.inj (e.symm.trans answered)
    obtain ⟨_, _, turns⟩ := stringLoop_advanced nonempty (.inr ⟨_, unfinished⟩)
    exact turns.inq_of_idle quiet.2

theorem ExecEnd.inq {i : Instr} {s t : State} (h : ExecEnd i s t) (quiet : QuietHost s) (row : i.row ≠ .trap) :
    t.inq = s.inq.drop (pollCount i - 1) := by
  cases h with
  | terminal char t h trap => exact absurd trap row
  | result dr v k count => simp [count, polls_inq k quiet]
  | store ea v k count => simp [count, polls_inq k quiet]
  | jump u h count => rcases h with rfl | ⟨rfl, _⟩ <;> simp [count]
  | out b hi => simp [hi, Instr.row] at row
  | halted e he =>
    cases he with
    | reserved8 | reserved13 => rfl
    | halt | trap => exact absurd rfl row

theorem exec_inq {i : Instr} {s t : State} (wellFormed : i.wellFormed = true) (quiet : QuietHost s) (no_getc : i ≠ .getc)
    (no_in : i ≠ .inEcho) (executed : exec i s = .next t) : t.inq = s.inq.drop (pollCount i - 1) := by
  by_cases row : i.row = .trap
  · cases i with
    | getc => exact absurd rfl no_getc
    | inEcho => exact absurd rfl no_in
    | puts => exact scan_inq putsChars_ne_nil quiet executed
    | putsp => exact scan_inq putspChars_ne_nil quiet executed
    | out | halt =>
      cases executed
      rfl
    | trap code =>
      rw [exec_trap_undefined (Bool.not_eq_true' _ |>.mp wellFormed)] at executed
      cases executed
      rfl
    | _ => simp [Instr.row] at row
  · exact (exec_end wellFormed executed).inq quiet row

theorem pollCount_pos (i : Instr) : 0 < pollCount i := by cases i <;> exact Nat.succ_pos _

/-- Settles O51: the fetch's poll takes one character and `exec_inq` gives the others. -/
theorem stepPollsAsOftenAsItReads : Obligations.StepPollsAsOftenAsItReads := by
  unfold Obligations.StepPollsAsOftenAsItReads
  intro s t run phase quiet no_getc no_in stepped
  have idle : hostTurn s = s := hostTurn_idle quiet.2
  have fetched : (fetchState params s).inq = s.inq.drop 1 := polls_inq 1 quiet
  have quiet' : QuietHost (fetchState params s) :=
    ⟨(poll_intr params s).trans (by rw [idle, quiet.1]),
      (poll_host params s).trans (by rw [idle, quiet.2])⟩
  rw [step_fetch run phase (idle.symm ▸ quiet.1), idle] at stepped
  rw [exec_inq (decode_wellFormed _) quiet' no_getc no_in stepped, fetched, List.drop_drop, Nat.add_comm,
    Nat.sub_add_cancel (pollCount_pos _)]

end Sys2Proof.Machine
end

section
/-!
The state's operations: a register write (10_state.md R21), a turn of the host (R33, R36), the poll (20_memory.md R52).
-/
namespace Sys2Proof.Machine

/-- Settles O8: `State.reg_setReg`, and `setReg` is an update of `regs` alone. -/
theorem registerWriteIsLocal : Obligations.RegisterWriteIsLocal := by
  unfold Obligations.RegisterWriteIsLocal
  exact fun s d r v => ⟨State.reg_setReg s d r v, by cases d <;> rfl⟩

/-- Settles O10: the two cases of the list of turns. -/
theorem hostTurnMovesOnlyTheHostSide : Obligations.HostTurnMovesOnlyTheHostSide := by
  unfold Obligations.HostTurnMovesOnlyTheHostSide
  intro s
  refine ⟨hostTurn_idle, fun u rest turns => ?_, ?_⟩
  · simp [hostTurn, turns]
  · unfold hostTurn
    split <;> rfl

/-- A character is zero-extended (D7). -/
theorem toNat_charWord (c : Byte) : (charWord c).toNat = c.toNat := BitVec.toNat_setWidth_of_le (by decide)

theorem memPeek_kbsrAddr_poll_idle (p : Params) {s : State} (canonical : s.mem.wf = true)
    (pending : (hostTurn s).inq = []) : memPeek kbsrAddr (poll p s) = 0#16 :=
  (memReadValue_idle p canonical pending kbsrAddr).trans (if_pos rfl)

/-- With the spec's parameters the ready word is 0x8000 whatever stood in the cell (D5). -/
theorem memPeek_kbsrAddr_poll_input {s : State} {c : Byte} {rest : List Byte} (canonical : s.mem.wf = true)
    (pending : (hostTurn s).inq = c :: rest) : memPeek kbsrAddr (poll params s) = 0x8000 :=
  (memReadValue_input params canonical pending kbsrAddr).trans ((if_neg kbdrAddr_ne_kbsrAddr.symm).trans (if_pos rfl))

theorem memPeek_kbdrAddr_poll_input (p : Params) {s : State} {c : Byte} {rest : List Byte} (canonical : s.mem.wf = true)
    (pending : (hostTurn s).inq = c :: rest) : memPeek kbdrAddr (poll p s) = charWord c :=
  (memReadValue_input p canonical pending kbdrAddr).trans (if_pos rfl)

/-- Without pending input the poll clears the status cell and leaves the data cell. -/
theorem sameCells_poll_idle (p : Params) {s : State} (canonical : s.mem.wf = true) (pending : (hostTurn s).inq = []) :
    SameCells [kbsrAddr] s (poll p s) := by
  intro a other
  exact (memReadValue_idle p canonical pending a).trans (if_neg (List.mem_singleton.not.mp other))

/-- But for memory and the queue the poll is the host's turn. -/
theorem poll_with_mem_inq (s : State) : { poll params s with mem := s.mem, inq := (hostTurn s).inq } = hostTurn s := by
  rw [← hostTurn_mem s]
  cases pending : (hostTurn s).inq with
  | nil =>
    rw [poll_idle pending, ← pending]
    rfl
  | cons c rest =>
    rw [poll_input pending, ← pending]
    rfl

/-- Settles O11: the two device cells, the queue and the frame of a poll, by what it finds pending. -/
theorem pollRewritesTheDeviceCells : Obligations.PollRewritesTheDeviceCells := by
  unfold Obligations.PollRewritesTheDeviceCells
  intro s canonical
  refine ⟨fun pending => ⟨?_, ?_, ?_⟩, fun c rest pending => ⟨?_, ?_, ?_, ?_⟩, poll_with_mem_inq s⟩
  · exact memPeek_kbsrAddr_poll_idle params canonical pending
  · rw [poll_inq, pending, List.tail_nil]
  · exact sameCells_poll_idle params canonical pending
  · exact memPeek_kbsrAddr_poll_input canonical pending
  · rw [memPeek_kbdrAddr_poll_input params canonical pending, toNat_charWord]
  · rw [poll_inq, pending, List.tail_cons]
  · exact sameCells_poll params canonical

end Sys2Proof.Machine
end

section
/-!
The operate and control instructions and LEA (40_operate.md, 41_control.md, 42_load_store.md R134): each completes with its
result and its frame.
-/
namespace Sys2Proof.Machine

/-- The flag-triggering write does what R28 says. -/
theorem writesResult_writeResult (dr : Reg) (v : Word) (s : State) : WritesResult dr v s (writeResult dr v s) := by
  refine ⟨by simp [writeResult_reg], rfl, writeResult_pc dr v s, sameCells_of_mem (writeResult_mem dr v s), ?_,
    by simp [SameHost], by simp [SameStreams], by simp [SameControl]⟩
  intro r other
  rw [writeResult_reg, if_neg (List.mem_singleton.not.mp other)]

/-- A jump changes `pc` alone. -/
theorem setPc_frame (s : State) (a : Word) :
    (s.setPc a).cond = s.cond ∧ SameCells [] s (s.setPc a) ∧ SameSurroundings [] s (s.setPc a) :=
  ⟨rfl, sameCells_of_mem rfl, sameRegs_of_regs rfl, ⟨rfl, rfl, rfl⟩, ⟨rfl, rfl⟩, rfl, rfl, rfl⟩

/-- A jump with the link changes `pc` and R7. -/
theorem link_setPc_frame (s : State) (a : Word) :
    ((s.setReg .r7 s.pc).setPc a).cond = s.cond ∧ SameCells [] s ((s.setReg .r7 s.pc).setPc a) ∧
    SameSurroundings [.r7] s ((s.setReg .r7 s.pc).setPc a) := by
  refine ⟨rfl, sameCells_of_mem rfl, fun r other => ?_, ⟨rfl, rfl, rfl⟩, ⟨rfl, rfl⟩, rfl, rfl, rfl⟩
  rw [State.setPc_reg, State.reg_setReg_ne s s.pc (List.mem_singleton.not.mp other)]

/-- Settles O13: the result is the sum of two Words, which wraps. -/
theorem addWritesTheSum : Obligations.AddWritesTheSum := by
  unfold Obligations.AddWritesTheSum
  exact ⟨fun dr sr1 sr2 s => ⟨_, _, rfl, BitVec.toNat_add _ _, writesResult_writeResult dr _ s⟩,
    fun dr sr1 imm5 s => ⟨_, _, rfl, BitVec.toNat_add _ _, writesResult_writeResult dr _ s⟩⟩

/-- Settles O14: the result is the conjunction of two Words, bit by bit. -/
theorem andWritesTheConjunction : Obligations.AndWritesTheConjunction := by
  unfold Obligations.AndWritesTheConjunction
  exact ⟨fun dr sr1 sr2 s => ⟨_, _, rfl, fun _ => BitVec.getLsbD_and, writesResult_writeResult dr _ s⟩,
    fun dr sr1 imm5 s => ⟨_, _, rfl, fun _ => BitVec.getLsbD_and, writesResult_writeResult dr _ s⟩⟩

/-- Settles O15: the complement of a Word is its distance from 0xFFFF. -/
theorem notWritesTheComplement : Obligations.NotWritesTheComplement := by
  unfold Obligations.NotWritesTheComplement
  exact fun dr sr1 s => ⟨_, _, rfl, BitVec.toNat_not, writesResult_writeResult dr _ s⟩

/-- Settles O16: the result is the PC-relative address. -/
theorem leaWritesTheAddress : Obligations.LeaWritesTheAddress := by
  unfold Obligations.LeaWritesTheAddress
  exact fun dr offset9 s => ⟨_, _, rfl, BitVec.toNat_add _ _, writesResult_writeResult dr _ s⟩

/-- Settles O17: `branchTaken_iff` is the rule's test; either way `pc` alone is set. -/
theorem branchIsTakenOnItsFlags : Obligations.BranchIsTakenOnItsFlags := by
  unfold Obligations.BranchIsTakenOnItsFlags
  intro n z p offset9 s
  refine ⟨_, rfl, ?_⟩
  simp only [branchTaken_iff]
  split_ifs
  · exact ⟨BitVec.toNat_add _ _, setPc_frame s _⟩
  · exact ⟨rfl, setPc_frame s s.pc⟩

/-- Settles O18: `pc` alone is set, to the register. -/
theorem jmpGoesToTheBaseRegister : Obligations.JmpGoesToTheBaseRegister := by
  unfold Obligations.JmpGoesToTheBaseRegister
  exact fun baseR s => ⟨_, rfl, rfl, setPc_frame s _⟩

/-- Settles O19: R7 gets the link, `pc` the target. -/
theorem jsrLinksAndJumps : Obligations.JsrLinksAndJumps := by
  unfold Obligations.JsrLinksAndJumps
  exact fun offset11 s => ⟨_, rfl, rfl, BitVec.toNat_add _ _, link_setPc_frame s _⟩

/-- Settles O20: BaseR is read from the state that has the link, so R7 reads as the link. -/
theorem jsrrLinksThenReadsTheBase : Obligations.JsrrLinksThenReadsTheBase := by
  unfold Obligations.JsrrLinksThenReadsTheBase
  exact fun baseR s => ⟨_, rfl, rfl, State.reg_setReg s .r7 baseR s.pc, link_setPc_frame s _⟩

end Sys2Proof.Machine
end

section
/-!
Loads and stores (42_load_store.md R130 to R137).
-/
namespace Sys2Proof.Machine

/-- A load from an address is one poll, the cell and the flag-triggering write (R130). -/
theorem loadsFrom_loadFrom (dr : Reg) (ea : Word) {s : State} (canonical : s.mem.wf = true) :
    LoadsFrom dr ea s (loadFrom params dr ea s) := by
  obtain ⟨value, cond, pc, cells, regs, host, streams, control⟩ :=
    writesResult_writeResult dr (memPeek ea (poll params s)) (poll params s)
  refine ⟨value, cond, pc.trans (poll_pc params s), fun r other => (regs r other).trans (poll_reg params s r), cells,
    (sameCells_poll params canonical).trans (cells.mono (List.nil_subset _)), host, ?_, ?_⟩
  · exact ⟨streams.1.trans (poll_out params s), streams.2.trans (poll_diag params s)⟩
  · exact ⟨control.1.trans (poll_run params s), control.2.1.trans (poll_phase params s),
      control.2.2.trans (poll_draws params s)⟩

theorem storesTo_memWrite (ea v : Word) {s : State} (canonical : s.mem.wf = true) : StoresTo ea v s (memWrite ea v s) :=
  ⟨by rw [memPeek_memWrite canonical, if_pos rfl], sameCells_memWrite canonical ea v, rfl, rfl, sameRegs_of_regs rfl,
    ⟨rfl, rfl, rfl⟩, ⟨rfl, rfl⟩, rfl, rfl, rfl⟩

/-- Settles O21: both are `loadFrom` at their address. -/
theorem loadsReadThroughThePoll : Obligations.LoadsReadThroughThePoll := by
  unfold Obligations.LoadsReadThroughThePoll
  exact ⟨fun dr _ s canonical => ⟨_, rfl, loadsFrom_loadFrom dr _ canonical⟩,
    fun dr _ _ s canonical => ⟨_, rfl, loadsFrom_loadFrom dr _ canonical⟩⟩

/-- Settles O22: `loadFrom` at the pointer, from the state the pointer's poll left. -/
theorem ldiReadsTwice : Obligations.LdiReadsTwice := by
  unfold Obligations.LdiReadsTwice
  intro dr offset9 s canonical
  have loads := loadsFrom_loadFrom dr (memPeek (s.pc + sext offset9) (poll params s)) (poll_wf params canonical)
  have ⟨_, _, _, regs, _, cells, _⟩ := loads
  exact ⟨_, rfl, loads, (sameCells_poll params canonical).trans cells,
    fun r other => (regs r other).trans (poll_reg params s r)⟩

/-- Settles O23: both are `memWrite` at their address. -/
theorem storesWriteOneCell : Obligations.StoresWriteOneCell := by
  unfold Obligations.StoresWriteOneCell
  exact ⟨fun _ _ s canonical => ⟨_, rfl, storesTo_memWrite _ _ canonical⟩,
    fun _ _ _ s canonical => ⟨_, rfl, storesTo_memWrite _ _ canonical⟩⟩

/-- Settles O24: `memWrite` at the pointer, from the state the pointer's poll left. -/
theorem stiWritesThroughThePointer : Obligations.StiWritesThroughThePointer := by
  unfold Obligations.StiWritesThroughThePointer
  intro sr offset9 s canonical
  have stores := storesTo_memWrite (eaIndirect params offset9 s) (s.reg sr) (poll_wf params canonical)
  have ⟨_, written, _⟩ := stores
  have polled := (sameCells_poll params canonical).mono (more := [kbsrAddr, kbdrAddr, eaIndirect params offset9 s])
    (by simp)
  exact ⟨_, rfl, stores, rfl, polled.trans (written.mono (by simp)), sameRegs_of_regs (poll_regs params s)⟩

end Sys2Proof.Machine
end

section
/-!
OUT, HALT, the unrecognised trap codes and the reserved opcodes (43_trap.md R143, R147, R149; 44_reserved.md R160, R161).
-/
namespace Sys2Proof.Machine

/-- Settles O29: `exec_out`, and the low byte of a Word is its remainder. -/
theorem outWritesTheLowByte : Obligations.OutWritesTheLowByte := by
  unfold Obligations.OutWritesTheLowByte
  intro s
  refine ⟨_, lowByte (s.reg .r0), exec_out s, ?_, rfl, rfl, rfl, rfl, sameCells_of_mem rfl, sameRegs_of_regs rfl,
    ⟨rfl, rfl, rfl⟩, rfl, rfl, rfl⟩
  rw [lowByte_eq_ofNat]
  exact Nat.mod_mod _ 256

/-- Settles O34: `haltTrap`. -/
theorem haltStopsTheMachine : Obligations.HaltStopsTheMachine := by
  unfold Obligations.HaltStopsTheMachine
  intro s
  rw [exec_halt, haltTrap_eq]

/-- Settles O35: none of the six codes is in the range, so the dispatch ends at `unknownTrap`. -/
theorem unknownTrapRaises : Obligations.UnknownTrapRaises := by
  unfold Obligations.UnknownTrapRaises
  intro code s range
  exact ⟨exec_trap_undefined ((undefinedTrap_iff code).mpr range) s, rfl⟩

/-- Settles O37: each opcode raises its exception. -/
theorem reservedOpcodesRaise : Obligations.ReservedOpcodesRaise := by
  unfold Obligations.ReservedOpcodesRaise
  exact fun s => ⟨congrArg Host.Outcome.next (raise_eq _ s), congrArg Host.Outcome.next (raise_eq _ s)⟩

end Sys2Proof.Machine
end

section
/-!
GETC and IN (43_trap.md R142, R145), their waits (60_exceptions.md R186) and the interrupt inside them (R180).
-/
namespace Sys2Proof.Machine

/-! ### How a ReadChar ends, seen from a state before it -/

/-- A character is never negative (R27, D7). -/
theorem flagOf_charWord (c : Byte) : flagOf (charWord c) = if c = 0#8 then .zero else .pos := by
  revert c
  decide

theorem Moved.storesChar {s u : State} (moved : Moved s u) (c : Byte) : StoresChar c s (storeChar c u) := by
  refine ⟨?_, (storeChar_cond c u).trans (flagOf_charWord c), rfl, (storeChar_pc c u).trans moved.pc,
    (storeChar_run c u).trans moved.run, (storeChar_diag c u).trans moved.diag, (storeChar_draws c u).trans moved.draws,
    fun r other => ?_, sameCells_of_mem ((storeChar_mem c u).trans moved.mem)⟩
  · rw [storeChar_reg, if_pos rfl, toNat_charWord]
  · rw [storeChar_reg, if_neg (List.mem_singleton.not.mp other), moved.reg]

theorem Moved.waitsAt {s u : State} (moved : Moved s u) (ph : Phase) (nothing : u.inq = []) :
    WaitsAt ph s (u.setPhase ph) :=
  ⟨rfl, nothing, moved.pc, moved.cond, moved.run, moved.diag, moved.draws, sameRegs_of_regs moved.regs,
    sameCells_of_mem moved.mem⟩

theorem Moved.interruptedFrom {s u : State} (moved : Moved s u) (request : u.intr = true) :
    InterruptedFrom s (interruptHalt u) :=
  ⟨rfl, request, moved.diag⟩

/-- A wait in which the host does nothing leaves the state as it is. -/
theorem setPhase_hostTurn_idle {s : State} {ph : Phase} (phase : s.phase = ph) (idle : s.host = []) :
    (hostTurn s).setPhase ph = s := by
  rw [hostTurn_idle idle, ← phase]
  rfl

theorem arrivals_idle {s : State} (idle : s.host = []) (k : Nat) : arrivals k s = [] := by
  simp [arrivals, idle]

/-! ### GETC -/

theorem getcRead_stores {s : State} {c : Byte} {rest : List Byte} (pending : (hostTurn s).inq = c :: rest) :
    StoresChar c s (getcRead s) ∧ (getcRead s).out = s.out ∧ (getcRead s).inq = rest ∧
    (getcRead s).host = (hostTurn s).host ∧ (getcRead s).intr = (hostTurn s).intr := by
  have read : getcRead s = storeChar c ((hostTurn s).setInq rest) := by simp [getcRead, readChar_got pending]
  rw [read]
  exact ⟨((moved_hostTurn s).setInq rest).storesChar c, by simp, by simp, by simp, by simp⟩

theorem getcRead_waiting {s : State} (nothing : (hostTurn s).inq = []) (request : (hostTurn s).intr = false) :
    getcRead s = (hostTurn s).setPhase .getc := by
  simp [getcRead, readChar_waiting nothing request]

theorem getcRead_waits {s : State} (nothing : (hostTurn s).inq = []) (request : (hostTurn s).intr = false) :
    WaitsAt .getc s (getcRead s) ∧ (getcRead s).out = s.out := by
  rw [getcRead_waiting nothing request]
  exact ⟨(moved_hostTurn s).waitsAt .getc nothing, by simp⟩

theorem getcRead_interrupted {s : State} (nothing : (hostTurn s).inq = []) (request : (hostTurn s).intr = true) :
    InterruptedFrom s (getcRead s) ∧ (getcRead s).out = s.out := by
  have read : getcRead s = interruptHalt (hostTurn s) := by simp [getcRead, readChar_interrupted nothing request]
  rw [read]
  exact ⟨(moved_hostTurn s).interruptedFrom request, by simp⟩

/-- Settles O25: the three ends of a ReadChar, each by its lemma. -/
theorem getcReadsOneCharacter : Obligations.GetcReadsOneCharacter := by
  unfold Obligations.GetcReadsOneCharacter
  exact fun s => ⟨fun c rest pending => ⟨_, exec_getc s, getcRead_stores pending⟩,
    fun nothing request => ⟨_, exec_getc s, getcRead_waits nothing request⟩,
    fun nothing request => ⟨_, exec_getc s, getcRead_interrupted nothing request⟩⟩

/-- Settles O26: one more turn of the wait is the ReadChar again. -/
theorem getcWaitEndsWithInputOrInterrupt : Obligations.GetcWaitEndsWithInputOrInterrupt := by
  unfold Obligations.GetcWaitEndsWithInputOrInterrupt
  intro s run phase
  have stepped := step_getc run phase
  refine ⟨fun c rest pending => ?_, fun nothing request => ?_, fun nothing request => ?_⟩
  · obtain ⟨stores, out, inq, _⟩ := getcRead_stores pending
    exact ⟨_, stepped, stores, out, inq⟩
  · obtain ⟨waits, out⟩ := getcRead_waits nothing request
    refine ⟨_, stepped, waits, out, fun idle => ?_⟩
    rw [getcRead_waiting nothing request, setPhase_hostTurn_idle phase idle]
  · exact ⟨_, stepped, getcRead_interrupted nothing request⟩

/-- Settles O57: the fetch's poll took the first character, and the ReadChar finds the queue without it. -/
theorem getcSkipsTheCharacterItsFetchTook : Obligations.GetcSkipsTheCharacterItsFetchTook := by
  unfold Obligations.GetcSkipsTheCharacterItsFetchTook
  intro s c run phase quiet canonical getc
  have idle : hostTurn s = s := hostTurn_idle quiet.2
  have stepped : step s = .next (getcRead (fetchState params s)) := by
    rw [step_fetch run phase (by rw [idle, quiet.1]), idle, getc, exec_getc]
  have host : (fetchState params s).host = [] := (poll_host params s).trans (by rw [idle, quiet.2])
  have request : (hostTurn (fetchState params s)).intr = false := by
    rw [hostTurn_idle host]
    exact (poll_intr params s).trans (by rw [idle, quiet.1])
  have inq : (hostTurn (fetchState params s)).inq = s.inq.tail := by
    rw [hostTurn_idle host]
    exact (poll_inq s).trans (by rw [idle])
  have devices (rest : List Byte) (pending : s.inq = c :: rest) :
      (memPeek kbdrAddr (fetchState params s)).toNat = c.toNat ∧ memPeek kbsrAddr (fetchState params s) = 0x8000 := by
    have pending' : (hostTurn s).inq = c :: rest := by rw [idle, pending]
    refine ⟨?_, memPeek_kbsrAddr_poll_input canonical pending'⟩
    rw [← toNat_charWord c, ← memPeek_kbdrAddr_poll_input params canonical pending']
    rfl
  refine ⟨fun c' rest pending => ?_, fun pending => ?_⟩
  · obtain ⟨data, status⟩ := devices _ pending
    obtain ⟨⟨r0, _, phase', pc, _, _, _, _, cells⟩, _, queue, _⟩ := getcRead_stores (inq.trans (by rw [pending]; rfl))
    refine ⟨_, stepped, ?_, ?_, r0, queue, phase', pc⟩
    · rw [cells kbdrAddr List.not_mem_nil, data]
    · rw [cells kbsrAddr List.not_mem_nil, status]
  · obtain ⟨data, status⟩ := devices _ pending
    obtain ⟨⟨phase', queue, _, cond, _, _, _, regs, cells⟩, _⟩ := getcRead_waits (inq.trans (by rw [pending]; rfl)) request
    refine ⟨_, stepped, ?_, ?_, phase', queue, fun r other => ?_, ?_⟩
    · rw [cells kbdrAddr List.not_mem_nil, data]
    · rw [cells kbsrAddr List.not_mem_nil, status]
    · rw [regs r other]
      exact poll_reg params s r
    · rw [cond]
      exact poll_cond params s

/-! ### IN -/

theorem writeNext_first (b : Byte) (s : State) : writeNext true b s = .done (writeChar b s) := rfl

theorem writeNext_later {s : State} (b : Byte) (request : (hostTurn s).intr = false) :
    writeNext false b s = .done (writeChar b (hostTurn s)) := by
  simp [writeNext, request]

theorem writeNext_cut {s : State} (b : Byte) (request : (hostTurn s).intr = true) :
    writeNext false b s = .interrupted (hostTurn s) := by
  simp [writeNext, request]

/-- A replaced queue has no part in the host's request. -/
theorem hostTurn_setInq_intr (q : List Byte) (s : State) : (hostTurn (s.setInq q)).intr = (hostTurn s).intr := by
  unfold hostTurn
  rw [State.setInq_host]
  split <;> rfl

theorem inRead_echoed {p : Params} {s u : State} {c : Byte} {rest : List Byte} (pending : (hostTurn s).inq = c :: rest)
    (echo : writeNext p.inPrompt.isEmpty c ((hostTurn s).setInq rest) = .done u) : inRead p s = storeChar c u := by
  simp [inRead, readChar_got pending, echo]

theorem inRead_cut {p : Params} {s u : State} {c : Byte} {rest : List Byte} (pending : (hostTurn s).inq = c :: rest)
    (echo : writeNext p.inPrompt.isEmpty c ((hostTurn s).setInq rest) = .interrupted u) :
    inRead p s = interruptHalt u := by
  simp [inRead, readChar_got pending, echo]

/-- With an empty prompt the echo is the routine's first WriteChar: the host has no turn before it. -/
theorem inRead_taken_of_no_prompt {p : Params} {s : State} {c : Byte} {rest : List Byte} (no_prompt : p.inPrompt = [])
    (pending : (hostTurn s).inq = c :: rest) :
    StoresChar c s (inRead p s) ∧ (inRead p s).out = s.out ++ [c] ∧ (inRead p s).inq = rest := by
  have read := inRead_echoed (p := p) pending (u := writeChar c ((hostTurn s).setInq rest)) (by
    simp [no_prompt, writeNext_first])
  have moved := ((moved_hostTurn s).setInq rest).trans (moved_writeChar c _)
  rw [read]
  exact ⟨moved.storesChar c, by simp, by simp⟩

/-- Else the host has a turn before the echo. -/
theorem inRead_taken_of_no_request {p : Params} {s : State} {c : Byte} {rest : List Byte} (prompt : p.inPrompt ≠ [])
    (pending : (hostTurn s).inq = c :: rest) (request : (hostTurn (hostTurn s)).intr = false) :
    StoresChar c s (inRead p s) ∧ (inRead p s).out = s.out ++ [c] ∧
    (inRead p s).inq = rest ++ arrivals 1 (hostTurn s) := by
  have later : p.inPrompt.isEmpty = false := by simpa using prompt
  have read := inRead_echoed (p := p) pending (by
    rw [later]
    exact writeNext_later c ((hostTurn_setInq_intr rest _).trans request))
  have moved := ((moved_hostTurn s).setInq rest).trans ((moved_hostTurn _).trans (moved_writeChar c _))
  rw [read]
  exact ⟨moved.storesChar c, by simp, by simp [hostTurn_inq, arrivals]⟩

/-- The interrupt in that turn leaves the character taken and not echoed. -/
theorem inRead_cut_of_request {p : Params} {s : State} {c : Byte} {rest : List Byte} (prompt : p.inPrompt ≠ [])
    (pending : (hostTurn s).inq = c :: rest) (request : (hostTurn (hostTurn s)).intr = true) :
    InterruptedFrom s (inRead p s) ∧ (inRead p s).out = s.out := by
  have later : p.inPrompt.isEmpty = false := by simpa using prompt
  have request' := (hostTurn_setInq_intr rest _).trans request
  have read := inRead_cut (p := p) pending (by
    rw [later]
    exact writeNext_cut c request')
  have moved := ((moved_hostTurn s).setInq rest).trans (moved_hostTurn _)
  rw [read]
  exact ⟨moved.interruptedFrom request', by simp⟩

/-- With no interrupt to come a pending character is stored and echoed; what arrives before the echo is behind the rest. -/
theorem inRead_taken {s : State} {c : Byte} {rest : List Byte} (pending : (hostTurn s).inq = c :: rest)
    (quiet : Uninterrupted s) :
    StoresChar c s (inRead params s) ∧ (inRead params s).out = s.out ++ [c] ∧ (inRead params s).intr = false ∧
    ∃ late, (inRead params s).inq = rest ++ late ∧ (s.host = [] → late = []) := by
  have request : (inRead params s).intr = false :=
    ((trapEnd_inRead params (Moved.refl s)).turnsTaken.uninterrupted quiet).1
  by_cases no_prompt : params.inPrompt = []
  · obtain ⟨stores, out, inq⟩ := inRead_taken_of_no_prompt no_prompt pending
    exact ⟨stores, out, request, [], by simp [inq], fun _ => rfl⟩
  · obtain ⟨stores, out, inq⟩ := inRead_taken_of_no_request no_prompt pending
      (hostTurn_uninterrupted (hostTurn_uninterrupted quiet)).1
    exact ⟨stores, out, request, _, inq, fun idle => by rw [hostTurn_idle idle, arrivals_idle idle]⟩

theorem inRead_waiting {p : Params} {s : State} (nothing : (hostTurn s).inq = []) (request : (hostTurn s).intr = false) :
    inRead p s = (hostTurn s).setPhase .inEcho := by
  simp [inRead, readChar_waiting nothing request]

theorem inRead_interrupted {p : Params} {s : State} (nothing : (hostTurn s).inq = []) (request : (hostTurn s).intr = true) :
    InterruptedFrom s (inRead p s) ∧ (inRead p s).out = s.out := by
  have read : inRead p s = interruptHalt (hostTurn s) := by simp [inRead, readChar_interrupted nothing request]
  rw [read]
  exact ⟨(moved_hostTurn s).interruptedFrom request, by simp⟩

/-- Settles O28: one more turn of the wait is IN from its ReadChar on, and each clause one of its ends. -/
theorem inWaitEndsWithInputOrInterrupt : Obligations.InWaitEndsWithInputOrInterrupt := by
  unfold Obligations.InWaitEndsWithInputOrInterrupt
  intro s run phase
  have stepped := step_inEcho run phase
  refine ⟨fun c rest pending quiet => ⟨_, stepped, inRead_taken pending quiet⟩, fun c rest pending => ⟨_, stepped, ?_⟩,
    fun nothing request => ?_, fun nothing request => ⟨_, stepped, inRead_interrupted nothing request⟩, ?_⟩
  · by_cases no_prompt : Config.inPrompt = []
    · obtain ⟨stores, out, inq⟩ := inRead_taken_of_no_prompt (p := params) no_prompt pending
      rw [if_pos (.inl no_prompt), if_pos no_prompt]
      exact ⟨stores, out, by simp [inq, arrivals]⟩
    · cases request : (hostTurn (hostTurn s)).intr with
      | false =>
        rw [if_pos (.inr rfl), if_neg no_prompt]
        exact inRead_taken_of_no_request (p := params) no_prompt pending request
      | true =>
        rw [if_neg (by simp [no_prompt])]
        exact inRead_cut_of_request (p := params) no_prompt pending request
  · refine ⟨_, stepped, ?_⟩
    rw [inRead_waiting nothing request]
    exact ⟨(moved_hostTurn s).waitsAt .inEcho nothing, hostTurn_out s, setPhase_hostTurn_idle phase⟩
  · intro t answered halted
    obtain rfl := Host.Outcome.next.inj (stepped.symm.trans answered)
    exact inRead_halted run halted

/-- What is so from the state after the prompt is so from the state before it. -/
theorem Moved.trans_storesChar {s u t : State} {c : Byte} (moved : Moved s u) (stores : StoresChar c u t) :
    StoresChar c s t := by
  obtain ⟨r0, cond, phase, pc, run, diag, draws, regs, cells⟩ := stores
  exact ⟨r0, cond, phase, pc.trans moved.pc, run.trans moved.run, diag.trans moved.diag, draws.trans moved.draws,
    fun r other => (regs r other).trans (moved.reg r), fun a other => (cells a other).trans (moved.memPeek a)⟩

/-- Settles O27: the prompt takes its turns of the host (`printChars_uninterrupted`), and the ReadChar comes after them. -/
theorem inPromptsReadsAndEchoes : Obligations.InPromptsReadsAndEchoes := by
  unfold Obligations.InPromptsReadsAndEchoes
  intro s quiet
  obtain ⟨u, printed, turns, quiet'⟩ := printChars_uninterrupted true Config.inPrompt quiet
  obtain ⟨moved, out⟩ := printChars_done printed
  have begun : exec .inEcho s = .next (inRead params u) := by
    rw [exec_inEcho, inStart, show params.inPrompt = Config.inPrompt from rfl, printed]
  have inq : (hostTurn u).inq = s.inq ++ arrivals (Config.inPrompt.length - 1 + 1) s :=
    (turns.trans (hostAdvanced_hostTurn u)).2
  refine ⟨fun c rest pending => ⟨_, begun, ?_⟩, fun nothing => ⟨_, begun, ?_⟩⟩
  · obtain ⟨stores, out', request, late, queue, none_late⟩ := inRead_taken (inq.trans pending) quiet'
    refine ⟨moved.trans_storesChar stores, by rw [out', out], request, late, queue, fun idle => none_late ?_⟩
    rw [turns.1, idle, List.drop_nil]
  · have request := (hostTurn_uninterrupted quiet').1
    rw [inRead_waiting (inq.trans nothing) request]
    exact ⟨(moved.trans (moved_hostTurn u)).waitsAt .inEcho (inq.trans nothing), (hostTurn_out u).trans out, request⟩

end Sys2Proof.Machine
end

section
/-!
A store is seen by the very next fetch (20_memory.md R64).
-/
namespace Sys2Proof.Machine

/-- The fetch after a store to its own address finds the Word stored, unless its poll writes that cell. -/
theorem fetchWord_ordinary {s : State} (canonical : s.mem.wf = true) (status : s.pc ≠ kbsrAddr) (data : s.pc ≠ kbdrAddr) :
    fetchWord params (hostTurn s) = memPeek s.pc s := by
  rw [fetchWord, hostTurn_pc, memReadValue_ordinary params (by rwa [hostTurn_mem]) status data, memPeek_hostTurn]

theorem fetchWord_kbdrAddr_idle {s : State} (canonical : s.mem.wf = true) (data : s.pc = kbdrAddr)
    (nothing : (hostTurn (hostTurn s)).inq = []) : fetchWord params (hostTurn s) = memPeek s.pc s := by
  rw [fetchWord, hostTurn_pc, memReadValue_idle params (by rwa [hostTurn_mem]) nothing, data,
    if_neg kbdrAddr_ne_kbsrAddr, memPeek_hostTurn]

theorem fetchWord_kbsrAddr {s : State} (canonical : s.mem.wf = true) (status : s.pc = kbsrAddr) :
    fetchWord params (hostTurn s) = if (hostTurn (hostTurn s)).inq = [] then 0x0000 else 0x8000 := by
  have canonical' : (hostTurn s).mem.wf = true := by rwa [hostTurn_mem]
  rw [fetchWord, hostTurn_pc, status]
  cases pending : (hostTurn (hostTurn s)).inq with
  | nil => exact memPeek_kbsrAddr_poll_idle params canonical' pending
  | cons c rest => exact memPeek_kbsrAddr_poll_input canonical' pending

/-- Settles O56: the store leaves the Word at the incremented `pc`, where the next step fetches by the three lemmas above. -/
theorem storeIsSeenByTheNextFetch : Obligations.StoreIsSeenByTheNextFetch := by
  unfold Obligations.StoreIsSeenByTheNextFetch
  intro s sr run phase quiet canonical decoded
  set u := fetchState params (hostTurn s) with fetched
  have pc : u.pc = s.pc + 1 := congrArg (· + 1) (hostTurn_pc s)
  have canonical' : u.mem.wf = true := poll_wf params (by rwa [hostTurn_mem])
  have stepped : step s = .next (memWrite (s.pc + 1) (s.reg sr) u) := by
    have target : eaPcRel9 0 u = s.pc + 1 := by rw [eaPcRel9, pc]; exact BitVec.add_zero _
    have value : u.reg sr = s.reg sr := State.reg_congr (by simp [fetched]) sr
    rw [step_fetch run phase (hostTurn_uninterrupted quiet).1, decoded, ← target, ← value]
    rfl
  set t := memWrite (s.pc + 1) (s.reg sr) u with stored
  have pc' : t.pc = s.pc + 1 := pc
  have cell : memPeek t.pc t = s.reg sr := by rw [pc', stored, memPeek_memWrite canonical', if_pos rfl]
  have wf : t.mem.wf = true := memWrite_wf _ _ canonical'
  have next : step t = exec (decode (fetchWord params (hostTurn t))) (fetchState params (hostTurn t)) := by
    refine step_fetch ?_ ?_ (hostTurn_uninterrupted ((turnsTaken_step stepped).uninterrupted quiet)).1
    · simp [stored, fetched, run]
    · simp [stored, fetched, phase]
  rw [← pc']
  refine ⟨t, stepped, rfl, fun status data => ?_, fun data nothing => ?_, fun status => fetchWord_kbsrAddr wf status⟩
  · rw [next, fetchWord_ordinary wf status data, cell]
  · rw [next, fetchWord_kbdrAddr_idle wf data nothing, cell]

end Sys2Proof.Machine
end

section
/-!
The image load (70_reset_and_hazards.md R202, R203, R205).
-/
namespace Sys2Proof.Machine

/-! ### The image's words -/

theorem toNat_imageWord (hi lo : Byte) : (imageWord hi lo).toNat = hi.toNat * 256 + lo.toNat := by
  rw [imageWord, BitVec.toNat_append, ← Nat.shiftLeft_add_eq_or_of_lt lo.isLt, Nat.shiftLeft_eq]

/-- Whole pairs only (D15). -/
theorem length_imageWords : ∀ body : List Byte, (imageWords body).length = body.length / 2
  | [] => rfl
  | [_] => by simp [imageWords]
  | _ :: _ :: rest => by
    have := length_imageWords rest
    simp only [imageWords, List.length_cons]
    omega

theorem getElem?_imageWords : ∀ {body : List Byte} {i : Nat} {hi lo : Byte}, body[2 * i]? = some hi →
    body[2 * i + 1]? = some lo → (imageWords body)[i]? = some (imageWord hi lo)
  | [], _, _, _, h, _ => by simp at h
  | [_], i, _, _, _, h => by simp at h
  | _ :: _ :: _, 0, _, _, h, h' => by
    cases h
    cases h'
    rfl
  | _ :: _ :: _, i + 1, _, _, h, h' => getElem?_imageWords (i := i) h h'

/-! ### Consecutive writes -/

/-- A cell after consecutive writes: the word for it, if there is one, else what stood there. -/
theorem read_writeWords {ws : List Word} {k : Nat} {m : Memory} (fits : k + ws.length ≤ Config.memWords)
    (canonical : m.wf = true) (j : Nat) :
    Memory.read j (writeWords k ws m) = if k ≤ j then ws[j - k]?.getD (Memory.read j m) else Memory.read j m := by
  induction ws generalizing k m with
  | nil => simp [writeWords]
  | cons w ws ih =>
    rw [List.length_cons] at fits
    rw [writeWords, ih (by omega) (Memory.wf_write w (by omega) canonical), Memory.read_write j k w m canonical]
    rcases Nat.lt_trichotomy j k with h | rfl | h
    · rw [if_neg (by omega), if_neg h.ne, if_neg (by omega)]
    · simp
    · have later : j - k = j - (k + 1) + 1 := by omega
      rw [if_pos (Nat.succ_le_of_lt h), if_neg h.ne', if_pos h.le, later, List.getElem?_cons_succ]

/-! ### The load -/

/-- The size check passes an image with its origin and at most the limit (R204). -/
theorem size_accepted {b0 b1 : Byte} {body : List Byte} (size : (b0 :: b1 :: body).length ≤ 65535) :
    ¬ ((b0 :: b1 :: body).length = 0 ∨ (b0 :: b1 :: body).length > imageMaxBytes) := by
  simp only [imageMaxBytes, List.length_cons] at size ⊢
  omega

theorem load_fits {b0 b1 : Byte} {body : List Byte} (size : (b0 :: b1 :: body).length ≤ 65535)
    (fits : (imageWord b0 b1).toNat + (imageWords body).length ≤ Config.memWords) (s : State) :
    load (some (b0 :: b1 :: body)) s =
      .ok { s with mem := writeWords (imageWord b0 b1).toNat (imageWords body) s.mem } := by
  rw [load, if_neg (size_accepted size)]
  exact if_neg (Nat.not_lt.mpr fits)

theorem load_overflows {b0 b1 : Byte} {body : List Byte} (size : (b0 :: b1 :: body).length ≤ 65535)
    (overflow : Config.memWords < (imageWord b0 b1).toNat + (imageWords body).length) (s : State) :
    load (some (b0 :: b1 :: body)) s = .error .imageOverflowsAddressSpace := by
  rw [load, if_neg (size_accepted size)]
  exact if_pos overflow

/-- Settles O58: `read_writeWords` at an address of the image and at one outside it. -/
theorem loadPlacesTheImage : Obligations.LoadPlacesTheImage := by
  unfold Obligations.LoadPlacesTheImage
  intro s b0 b1 body canonical size fits
  rw [← toNat_imageWord, ← length_imageWords] at fits
  have words : Config.memWords = 65536 := rfl
  refine ⟨_, load_fits size fits s, fun i hi lo high low => ?_, fun a outside => ?_,
    writeWords_wf _ _ _ fits canonical, rfl⟩
  · have word := getElem?_imageWords high low
    have inside : i < (imageWords body).length := (List.getElem?_eq_some_iff.mp word).1
    have address : (BitVec.ofNat 16 (b0.toNat * 256 + b1.toNat + i)).toNat = (imageWord b0 b1).toNat + i := by
      rw [BitVec.toNat_ofNat, ← toNat_imageWord]
      omega
    rw [memPeek, address, read_writeWords fits canonical, if_pos (Nat.le_add_right _ _), Nat.add_sub_cancel_left, word,
      Option.getD_some, toNat_imageWord]
  · rw [← toNat_imageWord, ← length_imageWords] at outside
    rw [memPeek, read_writeWords fits canonical]
    split_ifs with above
    · rw [List.getElem?_eq_none (by omega), Option.getD_none, memPeek]
    · rfl

/-- Settles O60: one byte is no origin, and `load_overflows` is the other check. -/
theorem loadRejectsBadImages : Obligations.LoadRejectsBadImages := by
  unfold Obligations.LoadRejectsBadImages
  refine ⟨fun b s => by simp [load], fun s b0 b1 body size overflow => load_overflows size ?_ s⟩
  rw [toNat_imageWord, length_imageWords]
  exact overflow

end Sys2Proof.Machine
end
